-- ==== Sys2Proof/Word.lean ====
section
/-! DEFINITION. The word types of the core: bytes, 16-bit words, 12-bit addresses and the 4-bit fields of an opcode.
Every value of the core is unsigned (00_scope.md R14; 41_alu.md R140), so a `BitVec` is read through `toNat` wherever
the spec computes with exact integers. -/

namespace Sys2Proof

/-- An 8-bit unsigned value: a general register, a timer, a byte of memory (10_state.md R30, R40; 20_memory.md R60). -/
abbrev Byte := BitVec 8

/-- A 16-bit unsigned value: PC, I, a stack slot, an opcode (10_state.md R33, R36, R37; 30_encoding.md R90). -/
abbrev Word := BitVec 16

/-- A 12-bit unsigned address field NNN (30_encoding.md R92). -/
abbrev Addr12 := BitVec 12

/-- One nibble of an opcode: a register index X or Y, or the row count N (30_encoding.md R92). -/
abbrev Nibble := BitVec 4

end Sys2Proof
end

