-- ==== Sys2Proof/Syntax.lean ====
section
/-! DEFINITION. The instructions: one constructor per row of spec/opcode_table.json, in the table's order (30_encoding.md R95).
X and Y name general registers, NN is an 8-bit constant, NNN a 12-bit address, N a row count (30_encoding.md R92, R93). -/

namespace Sys2Proof

inductive Instr where
  /-- `00E0` (43_display.md R190). -/
  | clearDisplay
  /-- `00EE`, the table's `return` (40_control_flow.md R120). -/
  | ret
  /-- `1NNN` (40_control_flow.md R121). -/
  | jump (nnn : Addr12)
  /-- `2NNN` (40_control_flow.md R122). -/
  | call (nnn : Addr12)
  /-- `3XNN` (40_control_flow.md R123). -/
  | skipEqImm (x : Nibble) (nn : Byte)
  /-- `4XNN` (40_control_flow.md R125). -/
  | skipNeImm (x : Nibble) (nn : Byte)
  /-- `5XY0` (40_control_flow.md R126). -/
  | skipEqReg (x y : Nibble)
  /-- `6XNN` (41_alu.md R142). -/
  | loadImm (x : Nibble) (nn : Byte)
  /-- `7XNN` (41_alu.md R143). -/
  | addImm (x : Nibble) (nn : Byte)
  /-- `8XY0` (41_alu.md R144). -/
  | loadReg (x y : Nibble)
  /-- `8XY1` (41_alu.md R145). -/
  | orReg (x y : Nibble)
  /-- `8XY2` (41_alu.md R146). -/
  | andReg (x y : Nibble)
  /-- `8XY3` (41_alu.md R147). -/
  | xorReg (x y : Nibble)
  /-- `8XY4` (41_alu.md R148). -/
  | addReg (x y : Nibble)
  /-- `8XY5` (41_alu.md R149). -/
  | subReg (x y : Nibble)
  /-- `8XY6` (41_alu.md R150). -/
  | shiftRight (x y : Nibble)
  /-- `8XY7` (41_alu.md R151). -/
  | subRegYx (x y : Nibble)
  /-- `8XYE` (41_alu.md R152). -/
  | shiftLeft (x y : Nibble)
  /-- `9XY0` (40_control_flow.md R127). -/
  | skipNeReg (x y : Nibble)
  /-- `ANNN` (42_index_memory.md R170). -/
  | loadI (nnn : Addr12)
  /-- `CXNN` (41_alu.md R155). -/
  | randAnd (x : Nibble) (nn : Byte)
  /-- `DXYN` (43_display.md R192). -/
  | draw (x y n : Nibble)
  /-- `EX9E` (44_input_timers.md R210). -/
  | skipKeyPressed (x : Nibble)
  /-- `EXA1` (44_input_timers.md R211). -/
  | skipKeyNotPressed (x : Nibble)
  /-- `FX0A` (44_input_timers.md R212). -/
  | waitKey (x : Nibble)
  /-- `FX07` (44_input_timers.md R213). -/
  | loadDelay (x : Nibble)
  /-- `FX18` (44_input_timers.md R215). -/
  | loadSound (x : Nibble)
  /-- `FX15` (44_input_timers.md R214). -/
  | setDelay (x : Nibble)
  /-- `FX1E` (42_index_memory.md R171). -/
  | addI (x : Nibble)
  /-- `FX29` (42_index_memory.md R172). -/
  | fontAddr (x : Nibble)
  /-- `FX33` (42_index_memory.md R173). -/
  | bcd (x : Nibble)
  /-- `FX55` (42_index_memory.md R174). -/
  | storeRegs (x : Nibble)
  /-- `FX65` (42_index_memory.md R175). -/
  | loadRegs (x : Nibble)
  /-- Any other word (45_unimplemented.md R230). -/
  | unimplemented (op : Word)
  deriving DecidableEq, Repr

end Sys2Proof
end

