-- ==== Sys2Proof/WellFormed.lean ====
section
/-! DEFINITION. When an instruction as syntax stands for a word. Every field of every constructor has exactly the width of its
bits, so only `unimplemented` can be ill-formed: its word must match no row of the opcode map. The words are listed here by
class, as 45_unimplemented.md R232 lists them, and not through the decoder. -/

namespace Sys2Proof

/-- The words of 45_unimplemented.md R232, by class nibble: class 0 but `00E0` and `00EE`; `5XYn` and `9XYn` with n ≠ 0; `8XYn`
with n in 8..D or F; all of class B; class E but `EX9E` and `EXA1`; class F but its nine rows. -/
def isUnimplementedWord (op : Word) : Bool :=
  let low4 := op.toNat % 16
  let low8 := op.toNat % 256
  match op.toNat / 4096 with
  | 0x0 => op != 0x00E0#16 && op != 0x00EE#16
  | 0x5 => low4 != 0
  | 0x8 => (8 ≤ low4 && low4 ≤ 0xD) || low4 == 0xF
  | 0x9 => low4 != 0
  | 0xB => true
  | 0xE => low8 != 0x9E && low8 != 0xA1
  | 0xF => !([0x07, 0x0A, 0x15, 0x18, 0x1E, 0x29, 0x33, 0x55, 0x65].contains low8)
  | _ => false

/-- An instruction that stands for a word of the instruction set (30_encoding.md R95, R98). -/
def Instr.wellFormed : Instr → Bool
  | .unimplemented op => isUnimplementedWord op
  | _ => true

end Sys2Proof
end

