-- ==== Sys2Proof/Decode.lean ====
section
/-! DEFINITION. Decoding and encoding. Decoding is total on every 16-bit word and reads nothing but the word (30_encoding.md
R100); a word that matches no row decodes to `unimplemented` (R98). On a list of bytes it is refused by name only where fewer
than two bytes are left (R90). The opcode map of R95 stands here a second time as data, so that the two can be compared. -/

namespace Sys2Proof

/-! ### Fields (30_encoding.md R92) -/

/-- `d1`, op[15:12]: the instruction class. -/
def fieldD1 (op : Word) : Nibble := op.extractLsb' 12 4

/-- `X` = `d2`, op[11:8]. -/
def fieldX (op : Word) : Nibble := op.extractLsb' 8 4

/-- `Y` = `d3`, op[7:4]. -/
def fieldY (op : Word) : Nibble := op.extractLsb' 4 4

/-- `N` = `d4`, op[3:0]. -/
def fieldN (op : Word) : Nibble := op.extractLsb' 0 4

/-- `NN`, op[7:0]. -/
def fieldNN (op : Word) : Byte := op.extractLsb' 0 8

/-- `NNN`, op[11:0]. -/
def fieldNNN (op : Word) : Addr12 := op.extractLsb' 0 12

/-! ### Decoding, by class nibble (30_encoding.md R95) -/

/-- Class 0: the two fixed words, every other word unimplemented. -/
def decodeClass0 (op : Word) : Instr :=
  if op = 0x00E0#16 then .clearDisplay
  else if op = 0x00EE#16 then .ret
  else .unimplemented op

/-- Class 8: the function nibble `d4` selects the operation. -/
def decodeClass8 (op : Word) : Instr :=
  match (fieldN op).toNat with
  | 0x0 => .loadReg (fieldX op) (fieldY op)
  | 0x1 => .orReg (fieldX op) (fieldY op)
  | 0x2 => .andReg (fieldX op) (fieldY op)
  | 0x3 => .xorReg (fieldX op) (fieldY op)
  | 0x4 => .addReg (fieldX op) (fieldY op)
  | 0x5 => .subReg (fieldX op) (fieldY op)
  | 0x6 => .shiftRight (fieldX op) (fieldY op)
  | 0x7 => .subRegYx (fieldX op) (fieldY op)
  | 0xE => .shiftLeft (fieldX op) (fieldY op)
  | _ => .unimplemented op

/-- Class E: the low byte selects the operation. -/
def decodeClassE (op : Word) : Instr :=
  match (fieldNN op).toNat with
  | 0x9E => .skipKeyPressed (fieldX op)
  | 0xA1 => .skipKeyNotPressed (fieldX op)
  | _ => .unimplemented op

/-- Class F: the low byte selects the operation. -/
def decodeClassF (op : Word) : Instr :=
  match (fieldNN op).toNat with
  | 0x07 => .loadDelay (fieldX op)
  | 0x0A => .waitKey (fieldX op)
  | 0x15 => .setDelay (fieldX op)
  | 0x18 => .loadSound (fieldX op)
  | 0x1E => .addI (fieldX op)
  | 0x29 => .fontAddr (fieldX op)
  | 0x33 => .bcd (fieldX op)
  | 0x55 => .storeRegs (fieldX op)
  | 0x65 => .loadRegs (fieldX op)
  | _ => .unimplemented op

/-- The instruction a word stands for (30_encoding.md R95, R97 to R100). -/
def decodeWord (op : Word) : Instr :=
  match (fieldD1 op).toNat with
  | 0x0 => decodeClass0 op
  | 0x1 => .jump (fieldNNN op)
  | 0x2 => .call (fieldNNN op)
  | 0x3 => .skipEqImm (fieldX op) (fieldNN op)
  | 0x4 => .skipNeImm (fieldX op) (fieldNN op)
  | 0x5 => if fieldN op = 0x0#4 then .skipEqReg (fieldX op) (fieldY op) else .unimplemented op
  | 0x6 => .loadImm (fieldX op) (fieldNN op)
  | 0x7 => .addImm (fieldX op) (fieldNN op)
  | 0x8 => decodeClass8 op
  | 0x9 => if fieldN op = 0x0#4 then .skipNeReg (fieldX op) (fieldY op) else .unimplemented op
  | 0xA => .loadI (fieldNNN op)
  | 0xC => .randAnd (fieldX op) (fieldNN op)
  | 0xD => .draw (fieldX op) (fieldY op) (fieldN op)
  | 0xE => decodeClassE op
  | 0xF => decodeClassF op
  | _ => .unimplemented op

/-- Why a list of bytes holds no instruction: a word needs two bytes (30_encoding.md R90; log entry 14). -/
inductive DecodeError where
  /-- Fewer than two bytes are left. -/
  | truncated (available : Nat)
  deriving DecidableEq, Repr

/-- Two bytes as the word a fetch combines them to: the first, at the lower address, is bits[15:8] (20_memory.md R62). -/
def bigEndian (hi lo : Byte) : Word := hi ++ lo

/-- The bytes of a word as memory holds them, lowest address first (20_memory.md R62). -/
def wordBytes (op : Word) : Byte × Byte := (op.extractLsb' 8 8, op.extractLsb' 0 8)

/-- The instruction at the head of a list of bytes, and the bytes after it (log entry 14: the spec decodes words only). -/
def decode : List Byte → Except DecodeError (Instr × List Byte)
  | hi :: lo :: rest => .ok (decodeWord (bigEndian hi lo), rest)
  | [_] => .error (.truncated 1)
  | [] => .error (.truncated 0)

/-! ### Encoding (30_encoding.md R94, R95) -/

/-- Format `A`: `c NNN`. -/
def formA (c : Nibble) (nnn : Addr12) : Word := c ++ nnn

/-- Format `XI`: `c X NN`; format `XF` is the same layout with a fixed low byte. -/
def formXI (c x : Nibble) (nn : Byte) : Word := c ++ x ++ nn

/-- Format `XYN`: `c X Y N`; format `XY` is the same layout with a fixed function nibble. -/
def formXYN (c x y n : Nibble) : Word := c ++ x ++ y ++ n

/-- The word an instruction stands for (30_encoding.md R95). -/
def encode : Instr → Word
  | .clearDisplay => 0x00E0#16
  | .ret => 0x00EE#16
  | .jump nnn => formA 0x1#4 nnn
  | .call nnn => formA 0x2#4 nnn
  | .skipEqImm x nn => formXI 0x3#4 x nn
  | .skipNeImm x nn => formXI 0x4#4 x nn
  | .skipEqReg x y => formXYN 0x5#4 x y 0x0#4
  | .loadImm x nn => formXI 0x6#4 x nn
  | .addImm x nn => formXI 0x7#4 x nn
  | .loadReg x y => formXYN 0x8#4 x y 0x0#4
  | .orReg x y => formXYN 0x8#4 x y 0x1#4
  | .andReg x y => formXYN 0x8#4 x y 0x2#4
  | .xorReg x y => formXYN 0x8#4 x y 0x3#4
  | .addReg x y => formXYN 0x8#4 x y 0x4#4
  | .subReg x y => formXYN 0x8#4 x y 0x5#4
  | .shiftRight x y => formXYN 0x8#4 x y 0x6#4
  | .subRegYx x y => formXYN 0x8#4 x y 0x7#4
  | .shiftLeft x y => formXYN 0x8#4 x y 0xE#4
  | .skipNeReg x y => formXYN 0x9#4 x y 0x0#4
  | .loadI nnn => formA 0xA#4 nnn
  | .randAnd x nn => formXI 0xC#4 x nn
  | .draw x y n => formXYN 0xD#4 x y n
  | .skipKeyPressed x => formXI 0xE#4 x 0x9E#8
  | .skipKeyNotPressed x => formXI 0xE#4 x 0xA1#8
  | .waitKey x => formXI 0xF#4 x 0x0A#8
  | .loadDelay x => formXI 0xF#4 x 0x07#8
  | .loadSound x => formXI 0xF#4 x 0x18#8
  | .setDelay x => formXI 0xF#4 x 0x15#8
  | .addI x => formXI 0xF#4 x 0x1E#8
  | .fontAddr x => formXI 0xF#4 x 0x29#8
  | .bcd x => formXI 0xF#4 x 0x33#8
  | .storeRegs x => formXI 0xF#4 x 0x55#8
  | .loadRegs x => formXI 0xF#4 x 0x65#8
  | .unimplemented op => op

/-- The bytes of an instruction, lowest address first (20_memory.md R62). -/
def encodeBytes (i : Instr) : List Byte := [(wordBytes (encode i)).1, (wordBytes (encode i)).2]

/-! ### The opcode map as data (30_encoding.md R95) -/

/-- One row of the opcode map: a word belongs to it exactly when (op & mask) = match. -/
structure OpcodeRow where
  mask : Word
  pattern : Word
  mnemonic : String
  deriving DecidableEq, Repr

/-- Rows `00E0` to `8XY7` of 30_encoding.md R95. -/
def opcodeRowsLow : List OpcodeRow :=
  [⟨0xFFFF#16, 0x00E0#16, "clear-display"⟩, ⟨0xFFFF#16, 0x00EE#16, "return"⟩, ⟨0xF000#16, 0x1000#16, "jump"⟩,
   ⟨0xF000#16, 0x2000#16, "call"⟩, ⟨0xF000#16, 0x3000#16, "skip-eq-imm"⟩, ⟨0xF000#16, 0x4000#16, "skip-ne-imm"⟩,
   ⟨0xF00F#16, 0x5000#16, "skip-eq-reg"⟩, ⟨0xF000#16, 0x6000#16, "load-imm"⟩, ⟨0xF000#16, 0x7000#16, "add-imm"⟩,
   ⟨0xF00F#16, 0x8000#16, "load-reg"⟩, ⟨0xF00F#16, 0x8001#16, "or"⟩, ⟨0xF00F#16, 0x8002#16, "and"⟩,
   ⟨0xF00F#16, 0x8003#16, "xor"⟩, ⟨0xF00F#16, 0x8004#16, "add-reg"⟩, ⟨0xF00F#16, 0x8005#16, "sub-reg"⟩,
   ⟨0xF00F#16, 0x8006#16, "shift-right"⟩, ⟨0xF00F#16, 0x8007#16, "sub-reg-yx"⟩]

/-- Rows `8XYE` to `FX65` of 30_encoding.md R95. -/
def opcodeRowsHigh : List OpcodeRow :=
  [⟨0xF00F#16, 0x800E#16, "shift-left"⟩, ⟨0xF00F#16, 0x9000#16, "skip-ne-reg"⟩, ⟨0xF000#16, 0xA000#16, "load-I"⟩,
   ⟨0xF000#16, 0xC000#16, "rand-and"⟩, ⟨0xF000#16, 0xD000#16, "draw"⟩, ⟨0xF0FF#16, 0xE09E#16, "skip-key-pressed"⟩,
   ⟨0xF0FF#16, 0xE0A1#16, "skip-key-not-pressed"⟩, ⟨0xF0FF#16, 0xF00A#16, "wait-key"⟩, ⟨0xF0FF#16, 0xF007#16, "load-delay"⟩,
   ⟨0xF0FF#16, 0xF018#16, "load-sound"⟩, ⟨0xF0FF#16, 0xF015#16, "set-delay"⟩, ⟨0xF0FF#16, 0xF01E#16, "add-I"⟩,
   ⟨0xF0FF#16, 0xF029#16, "font-addr"⟩, ⟨0xF0FF#16, 0xF033#16, "bcd"⟩, ⟨0xF0FF#16, 0xF055#16, "store-regs"⟩,
   ⟨0xF0FF#16, 0xF065#16, "load-regs"⟩]

/-- The 33 rows of 30_encoding.md R95, in its order. -/
def opcodeRows : List OpcodeRow := opcodeRowsLow ++ opcodeRowsHigh

/-- A word belongs to a row when its fixed nibbles are the row's (30_encoding.md R99). -/
def rowMatches (r : OpcodeRow) (op : Word) : Bool := op &&& r.mask == r.pattern

/-- The mnemonic of an instruction, as spec/opcode_table.json spells it. -/
def mnemonicOf : Instr → String
  | .clearDisplay => "clear-display"
  | .ret => "return"
  | .jump _ => "jump"
  | .call _ => "call"
  | .skipEqImm _ _ => "skip-eq-imm"
  | .skipNeImm _ _ => "skip-ne-imm"
  | .skipEqReg _ _ => "skip-eq-reg"
  | .loadImm _ _ => "load-imm"
  | .addImm _ _ => "add-imm"
  | .loadReg _ _ => "load-reg"
  | .orReg _ _ => "or"
  | .andReg _ _ => "and"
  | .xorReg _ _ => "xor"
  | .addReg _ _ => "add-reg"
  | .subReg _ _ => "sub-reg"
  | .shiftRight _ _ => "shift-right"
  | .subRegYx _ _ => "sub-reg-yx"
  | .shiftLeft _ _ => "shift-left"
  | .skipNeReg _ _ => "skip-ne-reg"
  | .loadI _ => "load-I"
  | .randAnd _ _ => "rand-and"
  | .draw _ _ _ => "draw"
  | .skipKeyPressed _ => "skip-key-pressed"
  | .skipKeyNotPressed _ => "skip-key-not-pressed"
  | .waitKey _ => "wait-key"
  | .loadDelay _ => "load-delay"
  | .loadSound _ => "load-sound"
  | .setDelay _ => "set-delay"
  | .addI _ => "add-I"
  | .fontAddr _ => "font-addr"
  | .bcd _ => "bcd"
  | .storeRegs _ => "store-regs"
  | .loadRegs _ => "load-regs"
  | .unimplemented _ => "unimplemented"

/-! ### The host's question about one row -/

/-- The word whose bits are `w`, of which the table gives the lowest `nbits`; every bit above them is 0. -/
def tableWord (nbits w : Nat) : Word := BitVec.ofNat 16 (w % 2 ^ nbits)

/-- The instruction the decoder reads from the bytes of `tableWord nbits w`, laid out as memory holds them. -/
def decodeTableWord (nbits w : Nat) : Option Instr :=
  match decode [(wordBytes (tableWord nbits w)).1, (wordBytes (tableWord nbits w)).2] with
  | .ok (i, _) => some i
  | .error _ => none

end Sys2Proof
end

