-- ==== Sys2Proof/Config.lean ====
section
/-! DEFINITION. What the implementation fixes (00_scope.md R8, the sizes the spec takes as normative) and the two values it
leaves open (00_scope.md R10): the bytes of the font table after its first, and the random byte of each draw. The open
values are opaque constants, so a theorem that mentions one holds whatever it is. -/

namespace Sys2Proof.Config

/-- `MEM_SIZE`: bytes of memory, addresses 0x000 to 0xFFF (00_scope.md R8). -/
@[simp] abbrev memSize : Nat := 4096

/-- `BASE`: the program load address and the reset value of PC (00_scope.md R8). -/
@[simp] abbrev base : Nat := 0x200

/-- `STACK_DEPTH`: return-address slots (00_scope.md R8). -/
@[simp] abbrev stackDepth : Nat := 16

/-- `NKEYS`: keys of the keypad (00_scope.md R8). -/
@[simp] abbrev nkeys : Nat := 16

/-- `DISPLAY_W`: columns of the framebuffer (00_scope.md R8). -/
@[simp] abbrev displayW : Nat := 64

/-- `DISPLAY_H`: rows of the framebuffer (00_scope.md R8). -/
@[simp] abbrev displayH : Nat := 32

/-- `FONT_BASE`: the address of the font table (00_scope.md R8). -/
@[simp] abbrev fontBase : Nat := 0x000

/-- `FONT_SIZE`: bytes of the font table, 16 glyphs of 5 bytes (00_scope.md R8). -/
@[simp] abbrev fontSize : Nat := 80

/-- `GLYPH_BYTES`: bytes of one glyph (00_scope.md R8). -/
@[simp] abbrev glyphBytes : Nat := 5

/-- `SPRITE_W`: pixels of one sprite row (00_scope.md R8). -/
@[simp] abbrev spriteW : Nat := 8

/-- The largest image `load_program` accepts, `MEM_SIZE - BASE` = 3584 bytes (70_reset_and_hazards.md R274). -/
@[simp] abbrev maxImage : Nat := memSize - base

/-- FREE VALUE (00_scope.md R10, 92_eei_decisions.md D17; log entry 3): the font bytes the spec leaves open,
`FONT_DATA[k]` for k = 1..79. -/
opaque openFontByte : Nat → Byte

/-- `FONT_DATA[k]`: byte 0 is 0xF0, the only font byte the spec fixes; the others are free (00_scope.md R10). -/
def fontData (k : Nat) : Byte := if k = 0 then 0xF0#8 else openFontByte k

/-- FREE VALUE (41_alu.md R155, 92_eei_decisions.md D16; log entry 2): the byte the n-th random draw returns. Nothing
links one draw to another. -/
opaque randomByte : Nat → Byte

/-- The conventional font table (93_implementation_defined.md G6): the RECOMMENDED instance of `FONT_DATA`. No definition of the
machine uses it; a claim about other font bytes than byte 0 takes `FontIsConventional` as a premise (92_eei_decisions.md D17). -/
def conventionalFont : List Byte :=
  [0xF0, 0x90, 0x90, 0x90, 0xF0,  0x20, 0x60, 0x20, 0x20, 0x70,  0xF0, 0x10, 0xF0, 0x80, 0xF0,  0xF0, 0x10, 0xF0, 0x10, 0xF0] ++
  [0x90, 0x90, 0xF0, 0x10, 0x10,  0xF0, 0x80, 0xF0, 0x10, 0xF0,  0xF0, 0x80, 0xF0, 0x90, 0xF0,  0xF0, 0x10, 0x20, 0x40, 0x40] ++
  [0xF0, 0x90, 0xF0, 0x90, 0xF0,  0xF0, 0x90, 0xF0, 0x10, 0xF0,  0xF0, 0x90, 0xF0, 0x90, 0x90,  0xE0, 0x90, 0xE0, 0x90, 0xE0] ++
  [0xF0, 0x80, 0x80, 0x80, 0xF0,  0xE0, 0x90, 0x90, 0x90, 0xE0,  0xF0, 0x80, 0xF0, 0x80, 0xF0,  0xF0, 0x80, 0xF0, 0x80, 0x80]

/-- The premise that `FONT_DATA` is the conventional table (92_eei_decisions.md D17). -/
abbrev FontIsConventional : Prop := ∀ k : Fin 80, fontData k.val = conventionalFont.getD k.val 0

end Sys2Proof.Config
end

