-- ==== Sys2Proof/Machine/State.lean ====
section
/-! DEFINITION. The state of the core (10_state.md), its faults (60_exceptions.md R240), the one refusal the host's form asks for,
and the state right after `create()` (70_reset_and_hazards.md R270). The operations over it stand in Machine/Ops.lean. -/

namespace Sys2Proof.Machine

/-- The six faults of 60_exceptions.md R240, each with the information it records. A fault is FATAL: it is written into the state's
`fault` (R246), after which the core is halted (R247). Each is safe: the spec itself names it, and the state it leaves is the
spec's. As an outcome of `step` a fault is only ever the recorded one of a halted core. -/
inductive Fault where
  /-- Code 1, raised by the fetch of every step where `PC + 1 > 0xFFF`; records PC. Safe. -/
  | fetchOutOfBounds (pc : Word)
  /-- Code 2, raised by draw, bcd, store-regs and load-regs where an address of their range is above 0xFFF; records the first
  such address. Safe. -/
  | memoryOutOfBounds (addr : Nat)
  /-- Code 3, raised by call at SP = 16; records the address of the call. Safe. -/
  | stackOverflow (pcInsn : Word)
  /-- Code 4, raised by return at SP = 0; records the address of the return. Safe. -/
  | stackUnderflow (pcInsn : Word)
  /-- Code 5, raised by skip-key-pressed and skip-key-not-pressed where V[X] is 16 or more; records V[X]. Safe. -/
  | keyIndexOutOfRange (index : Byte)
  /-- Code 6, raised by bcd and store-regs where the range they would write starts below 0x050; records its start. Safe. -/
  | fontWriteViolation (addr : Nat)
  deriving DecidableEq, Repr

/-- Why the model has no meaning for an instruction. -/
inductive Refusal where
  /-- Raised by an arm of `exec` for an instruction without a meaning: no instruction of this model. Safe. -/
  | notModelled (mnemonic : String)
  deriving DecidableEq, Repr

/-- `MEM` (10_state.md R43): (address, byte) pairs, addresses strictly rising, no entry equal to the byte `create()` puts at its
address; an address that is not listed holds that byte. `Memory.wf` of Machine/Ops.lean says so. -/
abbrev Memory := List Host.Cell

/-- `FB` (10_state.md R42): 64 columns of 32 pixels, `true` = on. -/
abbrev FrameBuffer := Vector (Vector Bool 32) 64

/-- The architectural state (10_state.md), every component of its table, and one field of the model's own (`draws`). -/
structure State where
  /-- `MEM` (R43). -/
  mem : Memory
  /-- `V[0..15]`; VF is `V[15]` (R30, R31). -/
  v : Vector Byte 16
  /-- `I` (R36). -/
  i : Word
  /-- `PC` (R33). -/
  pc : Word
  /-- `STACK[0..15]` (R37). -/
  stack : Vector Word 16
  /-- `SP`, 0 to 16 (R38). -/
  sp : Fin 17
  /-- `DT` (R40). -/
  dt : Byte
  /-- `ST` (R40). -/
  st : Byte
  /-- `KEY[0..15]`, `true` = pressed (R41). -/
  key : Vector Bool 16
  /-- `FB` (R42). -/
  fb : FrameBuffer
  /-- `FAULT` (R45). -/
  fault : Option Fault
  /-- `REPORTS`, oldest first (R46). -/
  reports : List Word
  /-- THE MODEL'S OWN: how many random bytes have been drawn (log entries 2 and 4). It only names the next free value. -/
  draws : Nat
  deriving DecidableEq, Repr

/-- The state `create()` builds (70_reset_and_hazards.md R270). Nothing is listed in memory, so every address holds its reset
byte: the font in 0x000..0x04F, zero elsewhere. `draws := 0` is the model's own (log entry 4). -/
def State.reset : State where
  mem := []
  v := Vector.replicate 16 0x00#8
  i := 0x0000#16
  pc := 0x0200#16
  stack := Vector.replicate 16 0x0000#16
  sp := 0
  dt := 0x00#8
  st := 0x00#8
  key := Vector.replicate 16 false
  fb := Vector.replicate 64 (Vector.replicate 32 false)
  fault := none
  reports := []
  draws := 0

end Sys2Proof.Machine
end

