-- ==== Sys2Proof/Machine/Ops.lean ====
section
/-! DEFINITION. The named operations over the state: memory, registers, the return stack, the framebuffer, the reports, the random
draw, fetching an instruction, and taking a fault. Every meaning is built from these. -/

namespace Sys2Proof.Machine

/-- The outcome of an instruction or a step. -/
abbrev Result := Host.Outcome State Fault Refusal

/-! ### Memory (20_memory.md) -/

/-- The byte `create()` puts at an address, which is what an address not listed in memory reads as: the font table from
`FONT_BASE`, zero everywhere else (20_memory.md R61; 70_reset_and_hazards.md R270). -/
def initialByte (a : Nat) : Byte :=
  if Config.fontBase ≤ a ∧ a < Config.fontBase + Config.fontSize then Config.fontData (a - Config.fontBase) else 0x00#8

/-- `MemRead(addr, 1)` (00_scope.md R13; 20_memory.md R64, R71). No access reaches an address of `MEM_SIZE` or more: fetch and the
range checks come first (log entry 8). -/
def Memory.read : Memory → Nat → Byte
  | [], a => initialByte a
  | (b, w) :: m, a => if a = b then w else Memory.read m a

/-- Puts a byte into the list at its place; a byte equal to the address's reset byte is not listed. -/
def Memory.put : Memory → Nat → Byte → Memory
  | [], a, v => if v = initialByte a then [] else [(a, v)]
  | (b, w) :: m, a, v =>
    if a < b then (if v = initialByte a then (b, w) :: m else (a, v) :: (b, w) :: m)
    else if a = b then (if v = initialByte a then m else (a, v) :: m)
    else (b, w) :: Memory.put m a v

/-- `MemWrite(addr, 1, v)` (00_scope.md R13; 20_memory.md R64). An address of `MEM_SIZE` or more does not exist and is never
written: the range checks come first (log entry 8). -/
def Memory.write (m : Memory) (a : Nat) (v : Byte) : Memory :=
  if a < Config.memSize then m.put a v else m

/-- The canonical form of memory: addresses strictly rising, inside the address space, and no entry equal to its reset byte. -/
abbrev Memory.wf (m : Memory) : Prop :=
  m.Pairwise (fun p q => p.1 < q.1) ∧ ∀ p ∈ m, p.1 < Config.memSize ∧ p.2 ≠ initialByte p.1

/-- The `n` bytes from address `a`, lowest address first. -/
def Memory.readRange (m : Memory) (a n : Nat) : List Byte := (List.range n).map fun k => m.read (a + k)

/-- Writes bytes from address `a` upwards, one after the other. -/
def Memory.writeRange (m : Memory) (a : Nat) : List Byte → Memory
  | [] => m
  | b :: bs => Memory.writeRange (m.write a b) (a + 1) bs

/-! ### Registers (10_state.md R30 to R41) -/

/-- `V[x]` (00_scope.md R13). -/
def State.getV (s : State) (x : Nibble) : Byte := s.v[x.toNat]'x.isLt

/-- `V[x] <- b` (00_scope.md R13). -/
def State.setV (s : State) (x : Nibble) (b : Byte) : State := { s with v := s.v.set x.toNat b x.isLt }

/-- The index of VF, the flag register (10_state.md R31). -/
abbrev vf : Nibble := 0xF#4

/-- `I <- w`. -/
def State.setI (s : State) (w : Word) : State := { s with i := w }

/-- `PC <- w`. -/
def State.setPc (s : State) (w : Word) : State := { s with pc := w }

/-- `DT <- b`. -/
def State.setDt (s : State) (b : Byte) : State := { s with dt := b }

/-- `ST <- b`. -/
def State.setSt (s : State) (b : Byte) : State := { s with st := b }

/-- Memory as a whole replaced. -/
def State.setMem (s : State) (m : Memory) : State := { s with mem := m }

/-- All general registers replaced at once. -/
def State.setRegs (s : State) (v : Vector Byte 16) : State := { s with v := v }

/-- The framebuffer replaced. -/
def State.setFb (s : State) (fb : FrameBuffer) : State := { s with fb := fb }

/-- `KEY[k] <- b` (70_reset_and_hazards.md R276). -/
def State.setKey (s : State) (k : Fin 16) (b : Bool) : State := { s with key := s.key.set k.val b k.isLt }

/-- Stack and stack pointer replaced together, as push and pop do. -/
def State.setStack (s : State) (stack : Vector Word 16) (sp : Fin 17) : State := { s with stack := stack, sp := sp }

/-! ### Framebuffer (10_state.md R42) -/

/-- `FB[c][r]` (00_scope.md R13). -/
def FrameBuffer.pixel (fb : FrameBuffer) (c : Fin 64) (r : Fin 32) : Bool := fb[c.val][r.val]

/-- `FB[c][r] <- not FB[c][r]`. -/
def FrameBuffer.toggle (fb : FrameBuffer) (c : Fin 64) (r : Fin 32) : FrameBuffer :=
  fb.set c.val (fb[c.val].set r.val (!fb[c.val][r.val]))

/-- Every pixel off (43_display.md R190). -/
def blankScreen : FrameBuffer := Vector.replicate 64 (Vector.replicate 32 false)

/-! ### Program counter -/

/-- `PC <- PC + 2`, the fetch's advance (30_encoding.md R97). -/
def advancePc (s : State) : State := s.setPc (s.pc + 2)

/-- `pc_insn`, the address of the instruction being executed: a meaning starts with PC two past it (00_scope.md R16). -/
def pcInsn (s : State) : Word := s.pc - 2

/-- `skip()`: `PC <- PC + 2`, past the next two bytes whatever they hold (40_control_flow.md R124). -/
def skip (s : State) : State := s.setPc (s.pc + 2)

/-- `if c then skip()`. -/
def skipIf (c : Bool) (s : State) : State := if c then skip s else s

/-- wait-key's `PC <- PC - 2` (44_input_timers.md R212). -/
def rewind (s : State) : State := s.setPc (s.pc - 2)

/-! ### Taking a fault (60_exceptions.md R240, R246) -/

/-- The code of a fault (60_exceptions.md R240). -/
def Fault.code : Fault → Nat
  | .fetchOutOfBounds _ => 1
  | .memoryOutOfBounds _ => 2
  | .stackOverflow _ => 3
  | .stackUnderflow _ => 4
  | .keyIndexOutOfRange _ => 5
  | .fontWriteViolation _ => 6

/-- The information a fault records, as a number (60_exceptions.md R240). -/
def Fault.info : Fault → Nat
  | .fetchOutOfBounds pc => pc.toNat
  | .memoryOutOfBounds a => a
  | .stackOverflow pc => pc.toNat
  | .stackUnderflow pc => pc.toNat
  | .keyIndexOutOfRange k => k.toNat
  | .fontWriteViolation a => a

/-- `FAULT <- Fault(kind, info)` on the state as it was at the start of the step (60_exceptions.md R246). There is no vector, no
saved register but `FAULT` and no mode change. -/
def enterFault (f : Fault) (s : State) : State := { s with fault := some f }

/-- `raise Fault(kind, info)` inside an instruction (60_exceptions.md R246). Every check stands before the instruction's first
write, so the only write of the step to discard is the fetch's advance of PC. There is no return from a fault: only `create()`
leaves the faulted state (R247, R248). -/
def raise (f : Fault) (s : State) : State := enterFault f (s.setPc (pcInsn s))

/-- The end of an instruction that may raise a fault: the state it computed, or the fault taken on the state it started in. -/
def finish (s : State) : Except Fault State → Result
  | .ok t => .next t
  | .error f => .next (raise f s)

/-! ### Return stack (10_state.md R38) -/

/-- `push_return(a)`. -/
def pushReturn (a : Word) (s : State) : Except Fault State :=
  if h : s.sp.val < Config.stackDepth then
    .ok (s.setStack (s.stack.set s.sp.val a h) ⟨s.sp.val + 1, Nat.succ_lt_succ h⟩)
  else .error (.stackOverflow (pcInsn s))

/-- `pop_return()`: the popped address, and the state with SP decremented. -/
def popReturn (s : State) : Except Fault (Word × State) :=
  if h : 0 < s.sp.val then
    .ok (s.stack[s.sp.val - 1]'(by have := s.sp.isLt; omega),
         s.setStack s.stack ⟨s.sp.val - 1, by have := s.sp.isLt; omega⟩)
  else .error (.stackUnderflow (pcInsn s))

/-! ### Reports and random draws -/

/-- `report(op)`: appends to REPORTS (45_unimplemented.md R231). -/
def report (op : Word) (s : State) : State := { s with reports := s.reports ++ [op] }

/-- `draw_random()` (41_alu.md R155): the next free byte, and the state in which it has been drawn. -/
def drawRandom (s : State) : Byte × State := (Config.randomByte s.draws, { s with draws := s.draws + 1 })

/-! ### Fetch (30_encoding.md R97) -/

/-- `Fetch16(addr)`: a big-endian word (00_scope.md R13; 20_memory.md R62). -/
def fetch16 (m : Memory) (a : Nat) : Word := bigEndian (m.read a) (m.read (a + 1))

/-- The instruction at PC, or `FetchOutOfBounds` where a byte of it lies outside memory (20_memory.md R63). No alignment is
asked for (10_state.md R34). -/
def fetch (s : State) : Except Fault Instr :=
  if 0xFFF < s.pc.toNat + 1 then .error (.fetchOutOfBounds s.pc)
  else .ok (decodeWord (fetch16 s.mem s.pc.toNat))

/-- Where a word must stand to be fetched next: at PC, or at `BASE` where no fetch is possible at PC. -/
def fetchPlace (s : State) : Word := if 0xFFF < s.pc.toNat + 1 then BitVec.ofNat 16 Config.base else s.pc

/-- The state with a word placed where the next step fetches it, on a core that is not halted (log entry 9). -/
def placeWord (s : State) (op : Word) : State :=
  let pc := fetchPlace s
  { s with mem := (s.mem.write pc.toNat (wordBytes op).1).write (pc.toNat + 1) (wordBytes op).2, pc := pc, fault := none }

end Sys2Proof.Machine
end

