-- ==== Sys2Proof/Machine/Flags.lean ====
section
/-! DEFINITION. The flag computations, all into VF as the whole byte 0x01 or 0x00, and the routing of result and flag
(41_alu.md R140, R141). A flag is computed from the operands, never from the result. -/

namespace Sys2Proof.Machine

/-- A flag as the value of VF (41_alu.md R140). -/
def flagByte (c : Bool) : Byte := if c then 0x01#8 else 0x00#8

/-- The carry out of bit 7 of `a + b`: the exact sum exceeds 255 (41_alu.md R148). -/
def carryFlag (a b : Byte) : Byte := flagByte (255 < a.toNat + b.toNat)

/-- NOT borrow of `a - b`: `a >= b`, so equal operands give 1 (41_alu.md R149, R151). -/
def noBorrowFlag (a b : Byte) : Byte := flagByte (b.toNat ≤ a.toNat)

/-- Bit 0 of the operand before the shift, for BOTH shifts (41_alu.md R150, R152; 90_conflicts.md C4). -/
def shiftFlag (b : Byte) : Byte := b &&& 0x01#8

/-- Result first, flag last: with X = F the flag overwrites the result (41_alu.md R141). -/
def writeResultThenFlag (x : Nibble) (result flag : Byte) (s : State) : State := (s.setV x result).setV vf flag

end Sys2Proof.Machine
end

