-- ==== Sys2Proof/Machine/Operands.lean ====
section
/-! DEFINITION. The operand forms: immediates, the one data addressing mode `I + k` with its range checks, key indices, and the
values an instruction moves (30_encoding.md R93; 42_index_memory.md R176, R177). A register operand is `State.getV`. -/

namespace Sys2Proof.Machine

/-- `zext_16(NNN)` (30_encoding.md R93). -/
def zextAddr (nnn : Addr12) : Word := nnn.setWidth 16

/-- `zext_16` of a byte (00_scope.md R14). -/
def zextByte (b : Byte) : Word := b.setWidth 16

/-- `check_read(I, n)` (42_index_memory.md R177): the n bytes from I lie in memory; n = 0 checks nothing. The address `I + n - 1`
is exact, and the recorded address is `max(I, 0x1000)` (20_memory.md R65). -/
def checkRead (i : Word) (n : Nat) : Except Fault Unit :=
  if n ≠ 0 ∧ Config.memSize < i.toNat + n then .error (.memoryOutOfBounds (max i.toNat Config.memSize)) else .ok ()

/-- `check_write(I, n)` (42_index_memory.md R177): as `check_read`, and then the range must start above the font table. -/
def checkWrite (i : Word) (n : Nat) : Except Fault Unit :=
  match checkRead i n with
  | .error f => .error f
  | .ok () =>
    if n ≠ 0 ∧ i.toNat < Config.fontBase + Config.fontSize then .error (.fontWriteViolation i.toNat) else .ok ()

/-- A key index taken from a register: the full 8-bit value, not its low nibble (44_input_timers.md R210). -/
def keyIndex (k : Byte) : Except Fault (Fin 16) :=
  if h : k.toNat < Config.nkeys then .ok ⟨k.toNat, h⟩ else .error (.keyIndexOutOfRange k)

/-- The lowest pressed key, `min { k | KEY[k] = true }`, if any (44_input_timers.md R212). -/
def lowestKey (key : Vector Bool 16) : Option (Fin 16) := (List.finRange 16).find? fun k => key[k.val]

/-- The three decimal digits of a byte, hundreds first (42_index_memory.md R173). -/
def bcdDigits (b : Byte) : List Byte :=
  [BitVec.ofNat 8 (b.toNat / 100), BitVec.ofNat 8 (b.toNat / 10 % 10), BitVec.ofNat 8 (b.toNat % 10)]

/-- `V[0]` to `V[X]` (42_index_memory.md R174). -/
def regsUpTo (s : State) (x : Nibble) : List Byte := s.v.toList.take (x.toNat + 1)

/-- The registers with `V[0]` to `V[X]` taken from memory at I (42_index_memory.md R175). -/
def regsFromMemory (s : State) (x : Nibble) : Vector Byte 16 :=
  Vector.ofFn fun k => if k.val ≤ x.toNat then s.mem.read (s.i.toNat + k.val) else s.v[k.val]

/-- The sprite of a draw: N row bytes from I (43_display.md R191, R192). -/
def spriteRows (s : State) (n : Nibble) : List Byte := s.mem.readRange s.i.toNat n.toNat

end Sys2Proof.Machine
end

