-- ==== Sys2Proof/Machine/Alu.lean ====
section
/-! DEFINITION. Register loads, arithmetic, logic, shifts and random (41_alu.md). Both operands are read before any write
(41_alu.md R141). -/

namespace Sys2Proof.Machine

/-- load-imm (41_alu.md R142). -/
def execLoadImm (x : Nibble) (nn : Byte) (s : State) : Result := .next (s.setV x nn)

/-- add-imm (41_alu.md R143): no flag. -/
def execAddImm (x : Nibble) (nn : Byte) (s : State) : Result := .next (s.setV x (s.getV x + nn))

/-- load-reg (41_alu.md R144). -/
def execLoadReg (x y : Nibble) (s : State) : Result := .next (s.setV x (s.getV y))

/-- or (41_alu.md R145): no flag. -/
def execOrReg (x y : Nibble) (s : State) : Result := .next (s.setV x (s.getV x ||| s.getV y))

/-- and (41_alu.md R146): no flag. -/
def execAndReg (x y : Nibble) (s : State) : Result := .next (s.setV x (s.getV x &&& s.getV y))

/-- xor (41_alu.md R147): no flag. -/
def execXorReg (x y : Nibble) (s : State) : Result := .next (s.setV x (s.getV x ^^^ s.getV y))

/-- add-reg (41_alu.md R148). -/
def execAddReg (x y : Nibble) (s : State) : Result :=
  .next (writeResultThenFlag x (s.getV x + s.getV y) (carryFlag (s.getV x) (s.getV y)) s)

/-- sub-reg, x - y (41_alu.md R149). -/
def execSubReg (x y : Nibble) (s : State) : Result :=
  .next (writeResultThenFlag x (s.getV x - s.getV y) (noBorrowFlag (s.getV x) (s.getV y)) s)

/-- shift-right (41_alu.md R150): shifts V[Y], not V[X]. -/
def execShiftRight (x y : Nibble) (s : State) : Result :=
  .next (writeResultThenFlag x (s.getV y >>> 1) (shiftFlag (s.getV y)) s)

/-- sub-reg-yx, y - x (41_alu.md R151). -/
def execSubRegYx (x y : Nibble) (s : State) : Result :=
  .next (writeResultThenFlag x (s.getV y - s.getV x) (noBorrowFlag (s.getV y) (s.getV x)) s)

/-- shift-left (41_alu.md R152): shifts V[Y]; the flag is bit 0, not bit 7 (90_conflicts.md C4). -/
def execShiftLeft (x y : Nibble) (s : State) : Result :=
  .next (writeResultThenFlag x (s.getV y <<< 1) (shiftFlag (s.getV y)) s)

/-- rand-and (41_alu.md R155): one draw per execution. -/
def execRandAnd (x : Nibble) (nn : Byte) (s : State) : Result :=
  .next ((drawRandom s).2.setV x ((drawRandom s).1 &&& nn))

end Sys2Proof.Machine
end

