-- ==== Sys2Proof/Machine/ControlFlow.lean ====
section
/-! DEFINITION. Return, jump, call and the skips on values (40_control_flow.md). Each meaning starts with PC two past its
instruction (00_scope.md R16). -/

namespace Sys2Proof.Machine

/-- return (40_control_flow.md R120). -/
def execReturn (s : State) : Result :=
  match popReturn s with
  | .ok (a, t) => finish s (.ok (t.setPc a))
  | .error f => finish s (.error f)

/-- jump (40_control_flow.md R121). -/
def execJump (nnn : Addr12) (s : State) : Result := .next (s.setPc (zextAddr nnn))

/-- call (40_control_flow.md R122): pushes the address after the call. -/
def execCall (nnn : Addr12) (s : State) : Result :=
  match pushReturn s.pc s with
  | .ok t => finish s (.ok (t.setPc (zextAddr nnn)))
  | .error f => finish s (.error f)

/-- skip-eq-imm (40_control_flow.md R123). -/
def execSkipEqImm (x : Nibble) (nn : Byte) (s : State) : Result := .next (skipIf (s.getV x == nn) s)

/-- skip-ne-imm (40_control_flow.md R125). -/
def execSkipNeImm (x : Nibble) (nn : Byte) (s : State) : Result := .next (skipIf (s.getV x != nn) s)

/-- skip-eq-reg (40_control_flow.md R126). -/
def execSkipEqReg (x y : Nibble) (s : State) : Result := .next (skipIf (s.getV x == s.getV y) s)

/-- skip-ne-reg (40_control_flow.md R127). -/
def execSkipNeReg (x y : Nibble) (s : State) : Result := .next (skipIf (s.getV x != s.getV y) s)

end Sys2Proof.Machine
end

