-- ==== Sys2Proof/Machine/Display.lean ====
section
/-! DEFINITION. clear-display and draw (43_display.md). Coordinates wrap at both edges, always; there is no clipping (R192). -/

namespace Sys2Proof.Machine

/-- `(x0 + col) mod 64` (43_display.md R192). -/
def wrapColumn (x0 : Byte) (col : Nat) : Fin 64 := ⟨(x0.toNat + col) % Config.displayW, Nat.mod_lt _ (by decide)⟩

/-- `(y0 + row) mod 32` (43_display.md R192). -/
def wrapRow (y0 : Byte) (row : Nat) : Fin 32 := ⟨(y0.toNat + row) % Config.displayH, Nat.mod_lt _ (by decide)⟩

/-- The framebuffer under a draw in progress, and whether a pixel that was on has been turned off. -/
abbrev Drawing := FrameBuffer × Bool

/-- One bit of a sprite row; bit 7 is column offset 0 (43_display.md R191, R192). -/
def drawBit (x0 y0 : Byte) (row : Nat) (b : Byte) (d : Drawing) (col : Nat) : Drawing :=
  if b.getLsbD (7 - col) then
    let c := wrapColumn x0 col
    let r := wrapRow y0 row
    (d.1.toggle c r, d.2 || d.1.pixel c r)
  else d

/-- The eight bits of one sprite row, most significant first (43_display.md R192). -/
def drawRow (x0 y0 : Byte) (row : Nat) (b : Byte) (d : Drawing) : Drawing :=
  (List.range Config.spriteW).foldl (drawBit x0 y0 row b) d

/-- The rows of a sprite from row number `row` on (43_display.md R192). -/
def drawRows (x0 y0 : Byte) : Nat → List Byte → Drawing → Drawing
  | _, [], d => d
  | row, b :: bs, d => drawRows x0 y0 (row + 1) bs (drawRow x0 y0 row b d)

/-- clear-display (43_display.md R190). -/
def execClearDisplay (s : State) : Result := .next (s.setFb blankScreen)

/-- draw (43_display.md R192): the flag is written last, after every pixel. -/
def execDraw (x y n : Nibble) (s : State) : Result :=
  match checkRead s.i n.toNat with
  | .ok () =>
    let d := drawRows (s.getV x) (s.getV y) 0 (spriteRows s n) (s.fb, false)
    finish s (.ok ((s.setFb d.1).setV vf (flagByte d.2)))
  | .error f => finish s (.error f)

end Sys2Proof.Machine
end

