-- ==== Sys2Proof/Machine/Index.lean ====
section
/-! DEFINITION. The index register and the memory accesses through it (42_index_memory.md). No access modifies I (R176); every
range check comes before the first write (R177). -/

namespace Sys2Proof.Machine

/-- load-I (42_index_memory.md R170). -/
def execLoadI (nnn : Addr12) (s : State) : Result := .next (s.setI (zextAddr nnn))

/-- add-I (42_index_memory.md R171): wraps at 16 bits, no flag. -/
def execAddI (x : Nibble) (s : State) : Result := .next (s.setI (s.i + zextByte (s.getV x)))

/-- font-addr (42_index_memory.md R172): the full value of V[X], not its low nibble. -/
def execFontAddr (x : Nibble) (s : State) : Result :=
  .next (s.setI (BitVec.ofNat 16 (Config.fontBase + Config.glyphBytes * (s.getV x).toNat)))

/-- bcd (42_index_memory.md R173). -/
def execBcd (x : Nibble) (s : State) : Result :=
  match checkWrite s.i 3 with
  | .ok () => finish s (.ok (s.setMem (s.mem.writeRange s.i.toNat (bcdDigits (s.getV x)))))
  | .error f => finish s (.error f)

/-- store-regs (42_index_memory.md R174). -/
def execStoreRegs (x : Nibble) (s : State) : Result :=
  match checkWrite s.i (x.toNat + 1) with
  | .ok () => finish s (.ok (s.setMem (s.mem.writeRange s.i.toNat (regsUpTo s x))))
  | .error f => finish s (.error f)

/-- load-regs (42_index_memory.md R175). -/
def execLoadRegs (x : Nibble) (s : State) : Result :=
  match checkRead s.i (x.toNat + 1) with
  | .ok () => finish s (.ok (s.setRegs (regsFromMemory s x)))
  | .error f => finish s (.error f)

end Sys2Proof.Machine
end

