-- ==== Sys2Proof/Machine/Input.lean ====
section
/-! DEFINITION. Keypad input and the timers (44_input_timers.md). No instruction writes KEY or decrements a timer: only the host
does (R216; Machine/Transactions.lean). -/

namespace Sys2Proof.Machine

/-- skip-key-pressed (44_input_timers.md R210). -/
def execSkipKeyPressed (x : Nibble) (s : State) : Result :=
  match keyIndex (s.getV x) with
  | .ok k => finish s (.ok (skipIf s.key[k.val] s))
  | .error f => finish s (.error f)

/-- skip-key-not-pressed (44_input_timers.md R211). -/
def execSkipKeyNotPressed (x : Nibble) (s : State) : Result :=
  match keyIndex (s.getV x) with
  | .ok k => finish s (.ok (skipIf (!s.key[k.val]) s))
  | .error f => finish s (.error f)

/-- wait-key (44_input_timers.md R212): with no key pressed the step completes and PC is the instruction's own address again. -/
def execWaitKey (x : Nibble) (s : State) : Result :=
  match lowestKey s.key with
  | none => .next (rewind s)
  | some k => .next (s.setV x (BitVec.ofNat 8 k.val))

/-- load-delay (44_input_timers.md R213). -/
def execLoadDelay (x : Nibble) (s : State) : Result := .next (s.setV x s.dt)

/-- load-sound: sets the sound timer (44_input_timers.md R215). -/
def execLoadSound (x : Nibble) (s : State) : Result := .next (s.setSt (s.getV x))

/-- set-delay (44_input_timers.md R214). -/
def execSetDelay (x : Nibble) (s : State) : Result := .next (s.setDt (s.getV x))

end Sys2Proof.Machine
end

