-- ==== Sys2Proof/Machine/Unimplemented.lean ====
section
/-! DEFINITION. The fallback for a word that matches no row (45_unimplemented.md): it is reported and execution goes on. -/

namespace Sys2Proof.Machine

/-- unimplemented (45_unimplemented.md R230): PC keeps the fetch's advance, and nothing but REPORTS changes. -/
def execUnimplemented (op : Word) (s : State) : Result := .next (report op s)

end Sys2Proof.Machine
end

