-- ==== Sys2Proof/Machine/Step.lean ====
section
/-! DEFINITION. One `step()` of the core (30_encoding.md R97), and placing a word where the next step fetches it. -/

namespace Sys2Proof.Machine

/-- `step()` (30_encoding.md R97). A halted core refuses the step and returns its recorded failure again (60_exceptions.md R247):
that is the outcome `fault`. Otherwise the fetch's own fault is taken, or PC advances by 2 and the instruction runs. A step that
TAKES a fault answers the faulted state (log entry 1). -/
def step (s : State) : Host.Outcome State Fault Refusal :=
  match s.fault with
  | some f => .fault f
  | none =>
    match fetch s with
    | .error f => .next (enterFault f s)
    | .ok i => exec i (advancePc s)

/-- The state in which the very next step fetches and runs the word whose bits are `w` (log entry 9). -/
def State.withFetchWord (s : State) (nbits w : Nat) : State := placeWord s (tableWord nbits w)

end Sys2Proof.Machine
end

