-- ==== Sys2Proof/Machine/Transactions.lean ====
section
/-! DEFINITION. The host's side of the core (70_reset_and_hazards.md R270 to R282): the transactions, each between steps, in any
order (R282; log entry 5), what each answers, and the read-only views. -/

namespace Sys2Proof.Machine

/-- The transactions that act on the core (70_reset_and_hazards.md R281). -/
inductive Transaction where
  | create
  | loadProgram (bytes : List Byte)
  | step
  | tickTimers
  | setKey (index : Int) (pressed : Bool)
  deriving DecidableEq, Repr

/-- What a transaction answers. -/
inductive Response where
  | ok
  /-- `step()` failed, now or in an earlier step (60_exceptions.md R246, R247). -/
  | failure (f : Fault)
  /-- Refused because the core is halted (60_exceptions.md R247; log entry 10). -/
  | refused
  /-- The image does not fit (70_reset_and_hazards.md R274). -/
  | loadTooLarge (n : Nat)
  /-- No key has this index (70_reset_and_hazards.md R276). -/
  | keyIndexInvalid (index : Int)
  deriving DecidableEq, Repr

/-- `create()`: the reset state, whatever the state before (70_reset_and_hazards.md R270). Bytes drawn before are not drawn again
(log entry 4). -/
def createState (s : State) : State := { State.reset with draws := s.draws }

/-- `load_program(bytes)` (70_reset_and_hazards.md R274). -/
def loadProgram (bytes : List Byte) (s : State) : State × Response :=
  match s.fault with
  | some _ => (s, .refused)
  | none =>
    if Config.maxImage < bytes.length then (s, .loadTooLarge bytes.length)
    else (s.setMem (s.mem.writeRange Config.base bytes), .ok)

/-- One timer tick, floored at 0 (70_reset_and_hazards.md R275). -/
def countDown (b : Byte) : Byte := if 0 < b.toNat then b - 1 else b

/-- `tick_timers()` (70_reset_and_hazards.md R275). -/
def tickTimers (s : State) : State × Response :=
  match s.fault with
  | some _ => (s, .refused)
  | none => ((s.setDt (countDown s.dt)).setSt (countDown s.st), .ok)

/-- `set_key(index, pressed)` (70_reset_and_hazards.md R276). -/
def setKeyState (index : Int) (pressed : Bool) (s : State) : State × Response :=
  match s.fault with
  | some _ => (s, .refused)
  | none =>
    if h : 0 ≤ index ∧ index < 16 then (s.setKey ⟨index.toNat, by omega⟩ pressed, .ok)
    else (s, .keyIndexInvalid index)

/-- `step()` as the host sees it: ok, or the failure, on the step that takes the fault and on every step after it
(60_exceptions.md R246, R247). -/
def stepTransaction (s : State) : State × Response :=
  match step s with
  | .next t =>
    match t.fault with
    | none => (t, .ok)
    | some f => (t, .failure f)
  | .fault f => (s, .failure f)
  | .refused _ => (s, .refused)

/-- One transaction (70_reset_and_hazards.md R281). -/
def transact : Transaction → State → State × Response
  | .create, s => (createState s, .ok)
  | .loadProgram bytes, s => loadProgram bytes s
  | .step, s => stepTransaction s
  | .tickTimers, s => tickTimers s
  | .setKey index pressed, s => setKeyState index pressed s

/-- The state after a sequence of transactions, any interleaving the host chooses (70_reset_and_hazards.md R282). -/
def hostRun : List Transaction → State → State
  | [], s => s
  | t :: ts, s => hostRun ts (transact t s).1

/-- The framebuffer as the host samples it (43_display.md R195; 70_reset_and_hazards.md R281). -/
def readFramebuffer (s : State) (c : Fin 64) (r : Fin 32) : Bool := s.fb.pixel c r

/-- ST as the host reads it (70_reset_and_hazards.md R281; 44_input_timers.md R215). -/
def readSoundTimer (s : State) : Byte := s.st

/-- Whether a tone should play: exactly when the sound timer the host reads is not 0 (70_reset_and_hazards.md R281). -/
def toneOn (s : State) : Bool := readSoundTimer s != 0x00#8

/-- FAULT as the host reads it (70_reset_and_hazards.md R281). -/
def readFault (s : State) : Option Fault := s.fault

/-- REPORTS as the host reads it (70_reset_and_hazards.md R281). -/
def readReports (s : State) : List Word := s.reports

end Sys2Proof.Machine
end

