-- ==== Sys2Proof/Safety.lean ====
section
/-! DEFINITION. The words claims are stated in: failed and ended runs, the invariants of the core, the parts of the state that a
frame names, which fault a step raises, and which pixels a sprite covers. None of it is used by the machine. -/

namespace Sys2Proof.Machine

/-! ### Runs -/

/-- A failed run: the core is halted (60_exceptions.md R247). It is never a successful end. -/
abbrev State.failed (s : State) : Prop := s.fault ≠ none

/-- The end of a successful run (70_reset_and_hazards.md R285): not halted, and the word at PC is a jump to PC inside memory. -/
abbrev State.ended (s : State) : Prop :=
  s.fault = none ∧ s.pc.toNat ≤ 0xFFE ∧
    ∃ nnn : Addr12, fetch16 s.mem s.pc.toNat = 0x1#4 ++ nnn ∧ nnn.toNat = s.pc.toNat

/-! ### Invariants -/

/-- The font table is as `create()` installed it: never mutated at runtime (20_memory.md R66; 70_reset_and_hazards.md R272). -/
abbrev State.fontIntact (s : State) : Prop :=
  ∀ a < Config.fontSize, s.mem.read (Config.fontBase + a) = Config.fontData a

/-- Memory is in its canonical form and the font is intact. -/
abbrev State.memoryInv (s : State) : Prop := s.mem.wf ∧ s.fontIntact

/-- PC never exceeds 0x1002, and no return address on the stack exceeds 0x1000 (10_state.md R35). -/
abbrev State.pcInv (s : State) : Prop :=
  s.pc.toNat ≤ 0x1002 ∧ ∀ k : Fin 16, k.val < s.sp.val → (s.stack[k.val]).toNat ≤ 0x1000

/-! ### Parts of the state, for frames -/

/-- One named place of the state. -/
inductive Part where
  | reg (x : Nibble)
  | i
  | pc
  | memByte (a : Nat)
  | stackSlot (k : Fin 16)
  | sp
  | dt
  | st
  | key (k : Fin 16)
  | pixel (c : Fin 64) (r : Fin 32)
  | fault
  | reports
  | draws
  deriving DecidableEq, Repr

/-- A place holds the same in both states. -/
def Part.same (s t : State) : Part → Prop
  | .reg x => t.getV x = s.getV x
  | .i => t.i = s.i
  | .pc => t.pc = s.pc
  | .memByte a => t.mem.read a = s.mem.read a
  | .stackSlot k => t.stack[k.val] = s.stack[k.val]
  | .sp => t.sp = s.sp
  | .dt => t.dt = s.dt
  | .st => t.st = s.st
  | .key k => t.key[k.val] = s.key[k.val]
  | .pixel c r => t.fb.pixel c r = s.fb.pixel c r
  | .fault => t.fault = s.fault
  | .reports => t.reports = s.reports
  | .draws => t.draws = s.draws

/-- Every place outside `w` holds the same in `t` as in `s`: every register, every byte of memory, every pixel, and so on. -/
def unchangedBut (w : Part → Prop) (s t : State) : Prop := ∀ p, ¬ w p → p.same s t

/-! ### Which fault a step raises (60_exceptions.md R240, R245) -/

/-- An address of the range of `n` bytes from `i` lies above 0xFFF. -/
abbrev rangeLeavesMemory (i : Word) (n : Nat) : Prop := ∃ k < n, 0xFFF < i.toNat + k

/-- `MemoryOutOfBounds` with `max(I, 0x1000)`, or nothing. -/
def readRangeFault (i : Word) (n : Nat) : Option Fault :=
  if rangeLeavesMemory i n then some (.memoryOutOfBounds (max i.toNat 0x1000)) else none

/-- `MemoryOutOfBounds` before `FontWriteViolation`, or nothing. -/
def writeRangeFault (i : Word) (n : Nat) : Option Fault :=
  if rangeLeavesMemory i n then some (.memoryOutOfBounds (max i.toNat 0x1000))
  else if i.toNat < 0x050 then some (.fontWriteViolation i.toNat)
  else none

/-- The fault instruction `ins`, standing at `pcInsn`, raises in state `s`, by the table of 60_exceptions.md R240. -/
def instrFault (ins : Instr) (pcInsn : Word) (s : State) : Option Fault :=
  match ins with
  | .call _ => if s.sp.val = 16 then some (.stackOverflow pcInsn) else none
  | .ret => if s.sp.val = 0 then some (.stackUnderflow pcInsn) else none
  | .skipKeyPressed x => if 16 ≤ (s.getV x).toNat then some (.keyIndexOutOfRange (s.getV x)) else none
  | .skipKeyNotPressed x => if 16 ≤ (s.getV x).toNat then some (.keyIndexOutOfRange (s.getV x)) else none
  | .draw _ _ n => readRangeFault s.i n.toNat
  | .bcd _ => writeRangeFault s.i 3
  | .storeRegs x => writeRangeFault s.i (x.toNat + 1)
  | .loadRegs x => readRangeFault s.i (x.toNat + 1)
  | _ => none

/-- The fault a step raises on a core that is not halted: the fetch's first, then the instruction's (60_exceptions.md R245). -/
def stepFault (s : State) : Option Fault :=
  if 0xFFF < s.pc.toNat + 1 then some (.fetchOutOfBounds s.pc)
  else instrFault (decodeWord (fetch16 s.mem s.pc.toNat)) s.pc s

/-! ### Sprites (43_display.md R192) -/

/-- A 1 bit of the sprite of `draw x y n` lands on pixel (c, r): in row `row` of the sprite, at column offset `col`. -/
def spriteCovers (s : State) (x y n : Nibble) (c : Fin 64) (r : Fin 32) : Prop :=
  ∃ row < n.toNat, ∃ col < 8, (s.mem.read (s.i.toNat + row)).getLsbD (7 - col) = true ∧
    c.val = ((s.getV x).toNat + col) % 64 ∧ r.val = ((s.getV y).toNat + row) % 32

/-! ### Instructions by what they may write -/

/-- The destination register of an instruction that names one (41_alu.md R154; 44_input_timers.md R212, R213); load-regs, which
has several, is not among them. -/
def destination : Instr → Option Nibble
  | .loadImm x _ => some x
  | .addImm x _ => some x
  | .loadReg x _ => some x
  | .orReg x _ => some x
  | .andReg x _ => some x
  | .xorReg x _ => some x
  | .addReg x _ => some x
  | .subReg x _ => some x
  | .shiftRight x _ => some x
  | .subRegYx x _ => some x
  | .shiftLeft x _ => some x
  | .randAnd x _ => some x
  | .waitKey x => some x
  | .loadDelay x => some x
  | _ => none

/-- The six instructions that write VF as a flag (10_state.md R31; 41_alu.md R154). -/
def writesFlag : Instr → Bool
  | .addReg _ _ => true
  | .subReg _ _ => true
  | .shiftRight _ _ => true
  | .subRegYx _ _ => true
  | .shiftLeft _ _ => true
  | .draw _ _ _ => true
  | _ => false

/-- The instructions that write PC themselves, beyond the fetch's advance: jump, call, return, the six skips and wait-key
(10_state.md R35). -/
def writesPc : Instr → Bool
  | .jump _ => true
  | .call _ => true
  | .ret => true
  | .skipEqImm _ _ => true
  | .skipNeImm _ _ => true
  | .skipEqReg _ _ => true
  | .skipNeReg _ _ => true
  | .skipKeyPressed _ => true
  | .skipKeyNotPressed _ => true
  | .waitKey _ => true
  | _ => false

/-- What an instruction, run on the state `s` its fetch leaves, may write (10_state.md, the table's 'written by' column). FAULT is
written only where the table of 60_exceptions.md R240 gives the instruction a fault in `s`; PC, which has the fetch's advance
already, only there (R246 puts it back) and by the instructions of `writesPc`. -/
def mayWrite (ins : Instr) (s : State) (p : Part) : Prop :=
  match p with
  | .reg r => destination ins = some r ∨ (writesFlag ins = true ∧ r = vf) ∨ (∃ x, ins = .loadRegs x ∧ r.toNat ≤ x.toNat)
  | .i => (∃ a, ins = .loadI a) ∨ (∃ x, ins = .addI x) ∨ (∃ x, ins = .fontAddr x)
  | .memByte a => ((∃ x, ins = .bcd x) ∧ s.i.toNat ≤ a ∧ a < s.i.toNat + 3) ∨
      (∃ x, ins = .storeRegs x ∧ s.i.toNat ≤ a ∧ a ≤ s.i.toNat + x.toNat)
  | .stackSlot k => (∃ a, ins = .call a) ∧ k.val = s.sp.val
  | .sp => (∃ a, ins = .call a) ∨ ins = .ret
  | .dt => ∃ x, ins = .setDelay x
  | .st => ∃ x, ins = .loadSound x
  | .key _ => False
  | .pixel _ _ => ins = .clearDisplay ∨ ∃ x y n, ins = .draw x y n
  | .reports => ∃ op, ins = .unimplemented op
  | .draws => ∃ x nn, ins = .randAnd x nn
  | .pc => writesPc ins = true ∨ instrFault ins (pcInsn s) s ≠ none
  | .fault => instrFault ins (pcInsn s) s ≠ none

end Sys2Proof.Machine
end

