-- ==== Sys2Proof/Certificates/Slice0/Obligations.lean ====
section
/-! DEFINITION. The statements for the provers, one `def Obligations.<Name> : Prop` each, over the rules of spec/. A meaning starts
with PC two past its instruction (00_scope.md R16), so in a statement about `exec` the instruction's own address is `s.pc - 2`.
`unchangedBut w s t` is the frame: every place outside `w` (every register, byte of memory, pixel, stack slot, key and so on) holds
the same in `t` as in `s`. A word in a decoding clause is written out field by field from 30_encoding.md R95. A fault that is taken
is a `next` state with FAULT written and PC at the instruction (60_exceptions.md R246); that its outcome is `next` is the model's form
(log entry 1). Clauses that read stored bytes back take `Memory.wf`, the model's canonical form, as a premise (log entry 13). -/

open Sys2Proof Sys2Proof.Machine

/-! ### Instructions -/

/-- 43_display.md R190: clear-display turns every pixel off and changes nothing else. -/
def Obligations.ClearDisplayTurnsEveryPixelOff : Prop :=
  decodeWord 0x00E0#16 = .clearDisplay ∧
  ∀ s : State, ∃ t, exec .clearDisplay s = .next t ∧ (∀ c r, t.fb.pixel c r = false) ∧
    unchangedBut (fun p => ∃ c r, p = .pixel c r) s t

/-- 40_control_flow.md R120: return pops the slot below SP into PC; at SP = 0 it takes StackUnderflow with no other effect. -/
def Obligations.ReturnPopsItsAddressOrUnderflows : Prop :=
  decodeWord 0x00EE#16 = .ret ∧
  ∀ s : State,
    (∀ k : Fin 16, s.sp.val = k.val + 1 → ∃ t, exec .ret s = .next t ∧ t.pc = s.stack[k.val] ∧ t.sp.val = k.val ∧
      unchangedBut (fun p => p = .pc ∨ p = .sp) s t) ∧
    (s.sp.val = 0 → exec .ret s = .next { s with pc := s.pc - 2, fault := some (.stackUnderflow (s.pc - 2)) })

/-- 40_control_flow.md R121: jump sets PC to its 12-bit address, even or odd, and changes nothing else. -/
def Obligations.JumpSetsThePc : Prop :=
  ∀ nnn : Addr12, decodeWord (0x1#4 ++ nnn) = .jump nnn ∧
  ∀ s : State, ∃ t, exec (.jump nnn) s = .next t ∧ t.pc.toNat = nnn.toNat ∧ unchangedBut (fun p => p = .pc) s t

/-- 40_control_flow.md R122: call pushes the address after it (PC, already advanced) and jumps; at SP = 16 it takes StackOverflow
with no other effect. -/
def Obligations.CallPushesAndJumpsOrOverflows : Prop :=
  ∀ nnn : Addr12, decodeWord (0x2#4 ++ nnn) = .call nnn ∧
  ∀ s : State,
    (∀ k : Fin 16, s.sp.val = k.val → ∃ t, exec (.call nnn) s = .next t ∧ t.stack[k.val] = s.pc ∧ t.sp.val = k.val + 1 ∧
      t.pc.toNat = nnn.toNat ∧ unchangedBut (fun p => p = .pc ∨ p = .sp ∨ p = .stackSlot k) s t) ∧
    (s.sp.val = 16 → exec (.call nnn) s = .next { s with pc := s.pc - 2, fault := some (.stackOverflow (s.pc - 2)) })

/-- 40_control_flow.md R123, R125 with R124: a skip on an immediate adds 2 to PC exactly when its condition holds, and changes
nothing else. -/
def Obligations.SkipsOnImmediatesMoveOnlyThePc : Prop :=
  ∀ (x : Nibble) (nn : Byte),
    decodeWord (0x3#4 ++ x ++ nn) = .skipEqImm x nn ∧ decodeWord (0x4#4 ++ x ++ nn) = .skipNeImm x nn ∧
    ∀ s : State,
      (∃ t, exec (.skipEqImm x nn) s = .next t ∧ t.pc = (if s.getV x = nn then s.pc + 2 else s.pc) ∧
        unchangedBut (fun p => p = .pc) s t) ∧
      (∃ t, exec (.skipNeImm x nn) s = .next t ∧ t.pc = (if s.getV x = nn then s.pc else s.pc + 2) ∧
        unchangedBut (fun p => p = .pc) s t)

/-- 40_control_flow.md R126, R127 with R124: a skip on two registers adds 2 to PC exactly when its condition holds, and changes
nothing else; with another low nibble the word is no skip but unimplemented. -/
def Obligations.SkipsOnRegistersMoveOnlyThePc : Prop :=
  ∀ x y : Nibble,
    decodeWord (0x5#4 ++ x ++ y ++ 0x0#4) = .skipEqReg x y ∧ decodeWord (0x9#4 ++ x ++ y ++ 0x0#4) = .skipNeReg x y ∧
    (∀ n : Nibble, n ≠ 0x0#4 →
      decodeWord (0x5#4 ++ x ++ y ++ n) = .unimplemented (0x5#4 ++ x ++ y ++ n) ∧
      decodeWord (0x9#4 ++ x ++ y ++ n) = .unimplemented (0x9#4 ++ x ++ y ++ n)) ∧
    ∀ s : State,
      (∃ t, exec (.skipEqReg x y) s = .next t ∧ t.pc = (if s.getV x = s.getV y then s.pc + 2 else s.pc) ∧
        unchangedBut (fun p => p = .pc) s t) ∧
      (∃ t, exec (.skipNeReg x y) s = .next t ∧ t.pc = (if s.getV x = s.getV y then s.pc else s.pc + 2) ∧
        unchangedBut (fun p => p = .pc) s t)

/-- 41_alu.md R142, R143: load-imm and add-imm write V[X], the sum modulo 256, and no flag: VF changes only as V[X]. -/
def Obligations.ImmediateLoadAndAddWriteOnlyTheirRegister : Prop :=
  ∀ (x : Nibble) (nn : Byte),
    decodeWord (0x6#4 ++ x ++ nn) = .loadImm x nn ∧ decodeWord (0x7#4 ++ x ++ nn) = .addImm x nn ∧
    ∀ s : State,
      (∃ t, exec (.loadImm x nn) s = .next t ∧ t.getV x = nn ∧ unchangedBut (fun p => p = .reg x) s t) ∧
      (∃ t, exec (.addImm x nn) s = .next t ∧ (t.getV x).toNat = ((s.getV x).toNat + nn.toNat) % 256 ∧
        unchangedBut (fun p => p = .reg x) s t)

/-- 41_alu.md R144 to R147: load-reg, or, and, xor write V[X] bit by bit from the old V[X] and V[Y], and no flag: VF changes only as
V[X]. -/
def Obligations.RegisterLoadAndLogicWriteOnlyTheirRegister : Prop :=
  ∀ x y : Nibble,
    decodeWord (0x8#4 ++ x ++ y ++ 0x0#4) = .loadReg x y ∧ decodeWord (0x8#4 ++ x ++ y ++ 0x1#4) = .orReg x y ∧
    decodeWord (0x8#4 ++ x ++ y ++ 0x2#4) = .andReg x y ∧ decodeWord (0x8#4 ++ x ++ y ++ 0x3#4) = .xorReg x y ∧
    ∀ s : State,
      (∃ t, exec (.loadReg x y) s = .next t ∧ t.getV x = s.getV y ∧ unchangedBut (fun p => p = .reg x) s t) ∧
      (∃ t, exec (.orReg x y) s = .next t ∧
        (∀ k < 8, (t.getV x).getLsbD k = ((s.getV x).getLsbD k || (s.getV y).getLsbD k)) ∧
        unchangedBut (fun p => p = .reg x) s t) ∧
      (∃ t, exec (.andReg x y) s = .next t ∧
        (∀ k < 8, (t.getV x).getLsbD k = ((s.getV x).getLsbD k && (s.getV y).getLsbD k)) ∧
        unchangedBut (fun p => p = .reg x) s t) ∧
      (∃ t, exec (.xorReg x y) s = .next t ∧
        (∀ k < 8, (t.getV x).getLsbD k = ((s.getV x).getLsbD k ^^ (s.getV y).getLsbD k)) ∧
        unchangedBut (fun p => p = .reg x) s t)

/-- 41_alu.md R148 with R141: add-reg writes the sum modulo 256 and then VF, 1 exactly when the exact sum exceeds 255; with X = F
only the flag remains. -/
def Obligations.AddRegWritesSumThenCarry : Prop :=
  ∀ x y : Nibble, decodeWord (0x8#4 ++ x ++ y ++ 0x4#4) = .addReg x y ∧
  ∀ s : State, ∃ t, exec (.addReg x y) s = .next t ∧
    t.getV 0xF#4 = (if (s.getV x).toNat + (s.getV y).toNat > 255 then 0x01#8 else 0x00#8) ∧
    (x ≠ 0xF#4 → (t.getV x).toNat = ((s.getV x).toNat + (s.getV y).toNat) % 256) ∧
    unchangedBut (fun p => p = .reg x ∨ p = .reg 0xF#4) s t

/-- 41_alu.md R149, R151 with R141: the subtractions write the difference modulo 256 and then VF, 1 exactly when there is no borrow,
else 0; with X = F only the flag remains. No borrow is the pseudocode's `a >= b` (`b >= a`); that equal operands therefore give 1 is
an inference the spec marks as its own (R149, `[derived]`). -/
def Obligations.SubtractionsWriteDifferenceThenNoBorrow : Prop :=
  ∀ x y : Nibble,
    decodeWord (0x8#4 ++ x ++ y ++ 0x5#4) = .subReg x y ∧ decodeWord (0x8#4 ++ x ++ y ++ 0x7#4) = .subRegYx x y ∧
    ∀ s : State,
      (∃ t, exec (.subReg x y) s = .next t ∧
        t.getV 0xF#4 = (if (s.getV x).toNat ≥ (s.getV y).toNat then 0x01#8 else 0x00#8) ∧
        (x ≠ 0xF#4 → ((t.getV x).toNat : Int) = (((s.getV x).toNat : Int) - ((s.getV y).toNat : Int)) % 256) ∧
        unchangedBut (fun p => p = .reg x ∨ p = .reg 0xF#4) s t) ∧
      (∃ t, exec (.subRegYx x y) s = .next t ∧
        t.getV 0xF#4 = (if (s.getV y).toNat ≥ (s.getV x).toNat then 0x01#8 else 0x00#8) ∧
        (x ≠ 0xF#4 → ((t.getV x).toNat : Int) = (((s.getV y).toNat : Int) - ((s.getV x).toNat : Int)) % 256) ∧
        unchangedBut (fun p => p = .reg x ∨ p = .reg 0xF#4) s t)

/-- 41_alu.md R150, R152 with R141: both shifts read V[Y], whatever V[X] holds, and set VF to bit 0 of V[Y] before the shift, the
left shift too (90_conflicts.md C4); with X = F only the flag remains. -/
def Obligations.ShiftsTakeVyAndItsLowBit : Prop :=
  ∀ x y : Nibble,
    decodeWord (0x8#4 ++ x ++ y ++ 0x6#4) = .shiftRight x y ∧ decodeWord (0x8#4 ++ x ++ y ++ 0xE#4) = .shiftLeft x y ∧
    ∀ s : State,
      (∃ t, exec (.shiftRight x y) s = .next t ∧
        t.getV 0xF#4 = (if (s.getV y).toNat % 2 = 1 then 0x01#8 else 0x00#8) ∧
        (x ≠ 0xF#4 → (t.getV x).toNat = (s.getV y).toNat / 2) ∧
        unchangedBut (fun p => p = .reg x ∨ p = .reg 0xF#4) s t) ∧
      (∃ t, exec (.shiftLeft x y) s = .next t ∧
        t.getV 0xF#4 = (if (s.getV y).toNat % 2 = 1 then 0x01#8 else 0x00#8) ∧
        (x ≠ 0xF#4 → (t.getV x).toNat = 2 * (s.getV y).toNat % 256) ∧
        unchangedBut (fun p => p = .reg x ∨ p = .reg 0xF#4) s t)

/-- 41_alu.md R155: rand-and draws one fresh byte and keeps its bits under NN. The byte is the model's free value
`Config.randomByte` at the draw counter (log entry 2): the statement holds whatever it is. -/
def Obligations.RandAndMasksOneFreshDraw : Prop :=
  ∀ (x : Nibble) (nn : Byte), decodeWord (0xC#4 ++ x ++ nn) = .randAnd x nn ∧
  ∀ s : State, ∃ t, exec (.randAnd x nn) s = .next t ∧ t.getV x = Config.randomByte s.draws &&& nn ∧
    t.draws = s.draws + 1 ∧ (∀ k, nn.getLsbD k = false → (t.getV x).getLsbD k = false) ∧
    unchangedBut (fun p => p = .reg x ∨ p = .draws) s t

/-- 42_index_memory.md R170, R171, R172: the three instructions that write I: a 12-bit address, a sum modulo 65536 with no flag, and
five times the whole of V[X]. -/
def Obligations.IndexWritersWriteOnlyI : Prop :=
  (∀ nnn : Addr12, decodeWord (0xA#4 ++ nnn) = .loadI nnn ∧
    ∀ s : State, ∃ t, exec (.loadI nnn) s = .next t ∧ t.i.toNat = nnn.toNat ∧ unchangedBut (fun p => p = .i) s t) ∧
  (∀ x : Nibble, decodeWord (0xF#4 ++ x ++ 0x1E#8) = .addI x ∧ decodeWord (0xF#4 ++ x ++ 0x29#8) = .fontAddr x ∧
    ∀ s : State,
      (∃ t, exec (.addI x) s = .next t ∧ t.i.toNat = (s.i.toNat + (s.getV x).toNat) % 65536 ∧
        unchangedBut (fun p => p = .i) s t) ∧
      (∃ t, exec (.fontAddr x) s = .next t ∧ t.i.toNat = 5 * (s.getV x).toNat ∧ unchangedBut (fun p => p = .i) s t))

/-- 42_index_memory.md R173: bcd stores the three decimal digits of V[X] at I, I+1, I+2 (read back where memory is in its canonical
form), and changes no other byte and no register; out of memory or into the font it takes the fault and writes nothing. -/
def Obligations.BcdStoresThreeDigitsOrFaults : Prop :=
  ∀ x : Nibble, decodeWord (0xF#4 ++ x ++ 0x33#8) = .bcd x ∧
  ∀ s : State,
    (0x050 ≤ s.i.toNat → s.i.toNat + 2 ≤ 0xFFF → ∃ t, exec (.bcd x) s = .next t ∧
      (s.mem.wf →
        (t.mem.read s.i.toNat).toNat = (s.getV x).toNat / 100 ∧
        (t.mem.read (s.i.toNat + 1)).toNat = (s.getV x).toNat / 10 % 10 ∧
        (t.mem.read (s.i.toNat + 2)).toNat = (s.getV x).toNat % 10) ∧
      unchangedBut (fun p => ∃ k < 3, p = .memByte (s.i.toNat + k)) s t) ∧
    (0xFFF < s.i.toNat + 2 → exec (.bcd x) s =
      .next { s with pc := s.pc - 2, fault := some (.memoryOutOfBounds (max s.i.toNat 0x1000)) }) ∧
    (s.i.toNat < 0x050 → exec (.bcd x) s =
      .next { s with pc := s.pc - 2, fault := some (.fontWriteViolation s.i.toNat) })

/-- 42_index_memory.md R174: store-regs stores V[0] to V[X] from I upwards (read back where memory is in its canonical form), and
changes no other byte, no register and not I; out of memory or into the font it takes the fault and writes nothing. -/
def Obligations.StoreRegsStoresTheRegistersOrFaults : Prop :=
  ∀ x : Nibble, decodeWord (0xF#4 ++ x ++ 0x55#8) = .storeRegs x ∧
  ∀ s : State,
    (0x050 ≤ s.i.toNat → s.i.toNat + x.toNat ≤ 0xFFF → ∃ t, exec (.storeRegs x) s = .next t ∧
      (s.mem.wf → ∀ k : Nibble, k.toNat ≤ x.toNat → t.mem.read (s.i.toNat + k.toNat) = s.getV k) ∧
      unchangedBut (fun p => ∃ k ≤ x.toNat, p = .memByte (s.i.toNat + k)) s t) ∧
    (0xFFF < s.i.toNat + x.toNat → exec (.storeRegs x) s =
      .next { s with pc := s.pc - 2, fault := some (.memoryOutOfBounds (max s.i.toNat 0x1000)) }) ∧
    (s.i.toNat < 0x050 → exec (.storeRegs x) s =
      .next { s with pc := s.pc - 2, fault := some (.fontWriteViolation s.i.toNat) })

/-- 42_index_memory.md R175: load-regs loads V[0] to V[X] from I upwards and changes nothing else, not I; out of memory it takes the
fault and writes no register. -/
def Obligations.LoadRegsLoadsTheRegistersOrFaults : Prop :=
  ∀ x : Nibble, decodeWord (0xF#4 ++ x ++ 0x65#8) = .loadRegs x ∧
  ∀ s : State,
    (s.i.toNat + x.toNat ≤ 0xFFF → ∃ t, exec (.loadRegs x) s = .next t ∧
      (∀ k : Nibble, k.toNat ≤ x.toNat → t.getV k = s.mem.read (s.i.toNat + k.toNat)) ∧
      unchangedBut (fun p => ∃ k : Nibble, k.toNat ≤ x.toNat ∧ p = .reg k) s t) ∧
    (0xFFF < s.i.toNat + x.toNat → exec (.loadRegs x) s =
      .next { s with pc := s.pc - 2, fault := some (.memoryOutOfBounds (max s.i.toNat 0x1000)) })

/-- 43_display.md R192: draw flips exactly the pixels its 1 bits land on, wrapping at both edges, sets VF to 1 exactly when one of
them was on, and changes nothing else; N = 0 draws nothing and clears VF; out of memory it takes the fault before any pixel changes. -/
def Obligations.DrawFlipsItsPixelsAndFlagsCollisions : Prop :=
  ∀ x y n : Nibble, decodeWord (0xD#4 ++ x ++ y ++ n) = .draw x y n ∧
  ∀ s : State,
    (n.toNat = 0 ∨ s.i.toNat + n.toNat - 1 ≤ 0xFFF → ∃ t, exec (.draw x y n) s = .next t ∧
      (∀ c r, (spriteCovers s x y n c r → t.fb.pixel c r = !s.fb.pixel c r) ∧
        (¬ spriteCovers s x y n c r → t.fb.pixel c r = s.fb.pixel c r)) ∧
      ((∃ c r, spriteCovers s x y n c r ∧ s.fb.pixel c r = true) → t.getV 0xF#4 = 0x01#8) ∧
      ((∀ c r, spriteCovers s x y n c r → s.fb.pixel c r = false) → t.getV 0xF#4 = 0x00#8) ∧
      unchangedBut (fun p => p = .reg 0xF#4 ∨ ∃ c r, p = .pixel c r) s t) ∧
    (1 ≤ n.toNat → 0xFFF < s.i.toNat + n.toNat - 1 → exec (.draw x y n) s =
      .next { s with pc := s.pc - 2, fault := some (.memoryOutOfBounds (max s.i.toNat 0x1000)) })

/-- 44_input_timers.md R210, R211: the key skips test the level of the key whose index is the whole of V[X]; an index of 16 or more
takes KeyIndexOutOfRange. -/
def Obligations.KeySkipsTestTheKeyOrFault : Prop :=
  ∀ x : Nibble,
    decodeWord (0xE#4 ++ x ++ 0x9E#8) = .skipKeyPressed x ∧ decodeWord (0xE#4 ++ x ++ 0xA1#8) = .skipKeyNotPressed x ∧
    ∀ s : State,
      (∀ k : Fin 16, (s.getV x).toNat = k.val →
        (∃ t, exec (.skipKeyPressed x) s = .next t ∧ t.pc = (if s.key[k.val] = true then s.pc + 2 else s.pc) ∧
          unchangedBut (fun p => p = .pc) s t) ∧
        (∃ t, exec (.skipKeyNotPressed x) s = .next t ∧ t.pc = (if s.key[k.val] = true then s.pc else s.pc + 2) ∧
          unchangedBut (fun p => p = .pc) s t)) ∧
      (16 ≤ (s.getV x).toNat →
        exec (.skipKeyPressed x) s =
          .next { s with pc := s.pc - 2, fault := some (.keyIndexOutOfRange (s.getV x)) } ∧
        exec (.skipKeyNotPressed x) s =
          .next { s with pc := s.pc - 2, fault := some (.keyIndexOutOfRange (s.getV x)) })

/-- 44_input_timers.md R212: wait-key takes the lowest pressed key into V[X]; with no key pressed the step completes and only PC
changes, back by 2. -/
def Obligations.WaitKeyTakesTheLowestKeyOrRewinds : Prop :=
  ∀ x : Nibble, decodeWord (0xF#4 ++ x ++ 0x0A#8) = .waitKey x ∧
  ∀ s : State,
    ((∀ k : Fin 16, s.key[k.val] = false) → exec (.waitKey x) s = .next { s with pc := s.pc - 2 }) ∧
    (∀ k : Fin 16, s.key[k.val] = true → (∀ j : Fin 16, j < k → s.key[j.val] = false) →
      ∃ t, exec (.waitKey x) s = .next t ∧ (t.getV x).toNat = k.val ∧ unchangedBut (fun p => p = .reg x) s t)

/-- 44_input_timers.md R213, R214, R215: the timer moves; none of them decrements anything. -/
def Obligations.TimerMovesCopyOneByte : Prop :=
  ∀ x : Nibble,
    decodeWord (0xF#4 ++ x ++ 0x07#8) = .loadDelay x ∧ decodeWord (0xF#4 ++ x ++ 0x15#8) = .setDelay x ∧
    decodeWord (0xF#4 ++ x ++ 0x18#8) = .loadSound x ∧
    ∀ s : State,
      (∃ t, exec (.loadDelay x) s = .next t ∧ t.getV x = s.dt ∧ unchangedBut (fun p => p = .reg x) s t) ∧
      (∃ t, exec (.setDelay x) s = .next t ∧ t.dt = s.getV x ∧ unchangedBut (fun p => p = .dt) s t) ∧
      (∃ t, exec (.loadSound x) s = .next t ∧ t.st = s.getV x ∧ unchangedBut (fun p => p = .st) s t)

/-- 45_unimplemented.md R230 with R231: a word of no row is reported, appended to REPORTS, and nothing else changes: PC keeps the
fetch's advance and the run goes on. -/
def Obligations.UnimplementedWordsAreReportedOnly : Prop :=
  ∀ op : Word, ((∀ r ∈ opcodeRows, rowMatches r op = false) → decodeWord op = .unimplemented op) ∧
  ∀ s : State, ∃ t, exec (.unimplemented op) s = .next t ∧ t.reports = s.reports ++ [op] ∧
    unchangedBut (fun p => p = .reports) s t

/-! ### The step, decoding and encoding -/

/-- 30_encoding.md R97, 20_memory.md R63: a step on a core that is not halted decodes the two bytes at PC and runs that instruction
on the state with PC advanced by 2; from PC = 0x0FFF on it takes FetchOutOfBounds with PC and does nothing else; a halted core
refuses the step and gives its recorded failure. The two bytes are given to the model's decoder as a list (log entry 14). -/
def Obligations.StepRunsTheDecodedInstruction : Prop :=
  ∀ s : State,
    (∀ (i : Instr) (rest : List Byte), s.fault = none → s.pc.toNat + 1 ≤ 0xFFF →
      decode [s.mem.read s.pc.toNat, s.mem.read (s.pc.toNat + 1)] = .ok (i, rest) → i.wellFormed = true →
      step s = exec i { s with pc := s.pc + 2 }) ∧
    (s.fault = none → 0xFFF < s.pc.toNat + 1 → step s = .next { s with fault := some (.fetchOutOfBounds s.pc) }) ∧
    (∀ f, s.fault = some f → step s = .fault f)

/-- 20_memory.md R62: the fetch combines the bytes at PC and PC + 1, wherever both exist (R63), into one word, the byte at the lower
address its high byte, and the instruction is that word's. -/
def Obligations.TwoBytesAreOneBigEndianWord : Prop :=
  (∀ (m : Memory) (a : Nat), (fetch16 m a).toNat = 256 * (m.read a).toNat + (m.read (a + 1)).toNat) ∧
  (∀ s : State, s.pc.toNat + 1 ≤ 0xFFF → fetch s = .ok (decodeWord (fetch16 s.mem s.pc.toNat)))

/-- The model's choice (log entry 14), resting on the length and byte order of 30_encoding.md R90 and 20_memory.md R62: decoding a list
of bytes takes its first two as one word and leaves the rest, and refuses a list of fewer than two by the name `truncated`, with the
bytes there are. The spec decodes words and no list of bytes. -/
def Obligations.ListDecodingTakesTwoBytesOrRefuses : Prop :=
  (∀ (hi lo : Byte) (rest : List Byte) (op : Word), op.toNat = 256 * hi.toNat + lo.toNat →
    decode (hi :: lo :: rest) = .ok (decodeWord op, rest)) ∧
  (∀ (bytes : List Byte) (e : DecodeError), decode bytes = .error e ↔ bytes.length < 2 ∧ e = .truncated bytes.length)

/-- 30_encoding.md R95, R99: decoding the bytes of a well-formed instruction gives that instruction back, for every value of every
operand: no bit of an encoding is dropped. -/
def Obligations.DecodeOfEncodeIsIdentity : Prop :=
  ∀ i : Instr, i.wellFormed = true → decode (encodeBytes i) = .ok (i, [])

/-- 30_encoding.md R98, R100: every word decodes to a well-formed instruction whose encoding is that word. -/
def Obligations.EncodeOfDecodeIsIdentity : Prop :=
  ∀ op : Word, (decodeWord op).wellFormed = true ∧ encode (decodeWord op) = op

/-- 30_encoding.md R98: at most one row of the opcode map matches a word, the decoder selects the row that matches, and the words
of no row are exactly those 45_unimplemented.md R232 lists. -/
def Obligations.DispatchIsTheUniqueMatchingRow : Prop :=
  ∀ op : Word, ((opcodeRows.filter fun r => rowMatches r op).map OpcodeRow.mnemonic) =
    (if isUnimplementedWord op = true then [] else [mnemonicOf (decodeWord op)]) ∧
    (isUnimplementedWord op = true ↔ decodeWord op = .unimplemented op)

/-- 30_encoding.md R95: the words the source prints, and with them at least one word of each of the sixteen classes, written out bit by
bit. -/
def Obligations.WrittenOutWordsDecode : Prop :=
  decodeWord 0b0000000011100000#16 = .clearDisplay ∧
  decodeWord 0b0001001000110100#16 = .jump 0x234#12 ∧
  decodeWord 0b0100001110000001#16 = .skipNeImm 0x3#4 0x81#8 ∧
  decodeWord 0b0101000100100000#16 = .skipEqReg 0x1#4 0x2#4 ∧
  decodeWord 0b0110000000000101#16 = .loadImm 0x0#4 0x05#8 ∧
  decodeWord 0b0111101000000010#16 = .addImm 0xA#4 0x02#8 ∧
  decodeWord 0b1001111001110000#16 = .skipNeReg 0xE#4 0x7#4 ∧
  decodeWord 0b1010000000000000#16 = .loadI 0x000#12 ∧
  decodeWord 0b1100001101011010#16 = .randAnd 0x3#4 0x5A#8 ∧
  decodeWord 0b1101000000000001#16 = .draw 0x0#4 0x0#4 0x1#4 ∧
  decodeWord 0b0011000000000101#16 = .skipEqImm 0x0#4 0x05#8 ∧
  decodeWord 0b0010101010111100#16 = .call 0xABC#12 ∧
  decodeWord 0b1000001100101110#16 = .shiftLeft 0x3#4 0x2#4 ∧
  decodeWord 0b1110010010100001#16 = .skipKeyNotPressed 0x4#4 ∧
  decodeWord 0b1111011001010101#16 = .storeRegs 0x6#4 ∧
  decodeWord 0b1011001000000000#16 = .unimplemented 0xB200#16

/-- The host's `withFetchWord` (log entry 9): the very next step fetches and runs exactly the word placed. -/
def Obligations.PlacedWordRunsNext : Prop :=
  ∀ (s : State) (w : Nat), s.mem.wf → w < 65536 →
    step (s.withFetchWord 16 w) =
      exec (decodeWord (BitVec.ofNat 16 w)) { s.withFetchWord 16 w with pc := (s.withFetchWord 16 w).pc + 2 }

/-! ### Faults -/

/-- 60_exceptions.md R240, R245: the six codes; and a step of a core that is not halted always answers a state, in which FAULT is
exactly what the table gives: the fetch's fault first, then the instruction's own, MemoryOutOfBounds before FontWriteViolation. -/
def Obligations.StepRaisesExactlyTheTablesFault : Prop :=
  (∀ (w : Word) (a : Nat) (k : Byte),
    (Fault.fetchOutOfBounds w).code = 1 ∧ (Fault.memoryOutOfBounds a).code = 2 ∧ (Fault.stackOverflow w).code = 3 ∧
    (Fault.stackUnderflow w).code = 4 ∧ (Fault.keyIndexOutOfRange k).code = 5 ∧ (Fault.fontWriteViolation a).code = 6) ∧
  ∀ s : State, s.fault = none → ∃ t, step s = .next t ∧ t.fault = stepFault s

/-- 60_exceptions.md R246: a fault is precise: the state after the step that takes it is the state before with FAULT written, and
the host's `step()` gives the failure. -/
def Obligations.FaultsArePrecise : Prop :=
  ∀ (s t : State) (f : Fault), s.fault = none → step s = .next t → t.fault = some f →
    t = { s with fault := some f } ∧ transact .step s = (t, .failure f)

/-- 60_exceptions.md R247: while FAULT is set, step, tick_timers, set_key and load_program are refused and change nothing, the step
giving the recorded failure; create() leaves the faulted state. That the other three answer the word `refused` is log entry 10. -/
def Obligations.HaltedCoreRefusesAllButCreate : Prop :=
  ∀ (s : State) (f : Fault), s.fault = some f →
    step s = .fault f ∧ transact .step s = (s, .failure f) ∧ transact .tickTimers s = (s, .refused) ∧
    (∀ index pressed, transact (.setKey index pressed) s = (s, .refused)) ∧
    (∀ bytes, transact (.loadProgram bytes) s = (s, .refused)) ∧
    (transact .create s).1.fault = none

/-! ### Invariants -/

/-- 20_memory.md R66, 70_reset_and_hazards.md R272: every step keeps the font table as `create()` installed it. The other half, that
every step keeps memory in its canonical form, is about the model's representation of memory (log entry 13, DESIGN CHOICE) and no rule
of the spec. -/
def Obligations.EveryStepKeepsMemoryAndFont : Prop :=
  ∀ s t : State, s.memoryInv → step s = .next t → t.memoryInv

/-- 70_reset_and_hazards.md R270: at reset the font is installed, its first byte 0xF0. That memory is then in its canonical form is
about the model's representation (log entry 13, DESIGN CHOICE) and no rule of the spec. -/
def Obligations.ResetHasCanonicalMemoryAndFont : Prop :=
  State.reset.memoryInv ∧ State.reset.mem.read 0 = 0xF0#8

/-- 10_state.md R35, an inference the spec marks as its own ('PC never exceeds 0x1002'): every step keeps PC at most 0x1002 and
every return address on the stack at most 0x1000. -/
def Obligations.EveryStepKeepsThePcBound : Prop :=
  ∀ s t : State, s.pcInv → step s = .next t → t.pcInv

/-- 70_reset_and_hazards.md R270: at reset PC is 0x0200. With it, PC and the stack are within the bounds of 10_state.md R35, which are
an inference the spec marks as its own. -/
def Obligations.ResetHasThePcBound : Prop :=
  State.reset.pcInv ∧ State.reset.pc = 0x0200#16

/-- The invariants hold after ANY sequence of the host's transactions, from any state that has them. That the sequence is a free input
is 70_reset_and_hazards.md R282, and that it is a finite list is log entry 5 (DESIGN CHOICE). Of the invariants, the intact font is
20_memory.md R66 and 70_reset_and_hazards.md R272, canonical memory is the model's representation (log entry 13, DESIGN CHOICE), and
the PC bound is 10_state.md R35's, an inference the spec marks as its own. -/
def Obligations.EveryHostInterleavingKeepsTheInvariants : Prop :=
  ∀ (ts : List Transaction) (s : State), s.memoryInv ∧ s.pcInv → (hostRun ts s).memoryInv ∧ (hostRun ts s).pcInv

/-! ### Whole-machine rules -/

/-- The 'written by' column of 10_state.md's table: an instruction changes only the places it may write: no instruction writes KEY,
only clear-display and draw write FB, only bcd and store-regs write memory, only load-I, add-I and font-addr write I, and so on. PC,
which starts with the fetch's advance, is changed only by jump, call, return, the skips and wait-key (10_state.md R35) and by an
instruction that takes a fault, FAULT only by such an instruction (60_exceptions.md R240, R242). -/
def Obligations.InstructionsWriteOnlyTheirParts : Prop :=
  ∀ (i : Instr) (s t : State), exec i s = .next t → unchangedBut (mayWrite i s) s t

/-- 41_alu.md R154: an instruction that is none of the six flag writers changes VF only when VF is its destination register. -/
def Obligations.OnlyFlagWritersTouchVf : Prop :=
  ∀ (i : Instr) (s t : State), exec i s = .next t → writesFlag i = false → destination i ≠ some 0xF#4 →
    i ≠ .loadRegs 0xF#4 → t.getV 0xF#4 = s.getV 0xF#4

/-- 10_state.md R40 ('No instruction reads ST') and R46 (no instruction reads REPORTS): two states that differ only in ST and REPORTS
step to states that differ only there. -/
def Obligations.SoundTimerAndReportsAreNeverRead : Prop :=
  ∀ (s t : State) (st : Byte) (reports : List Word), step s = .next t →
    ∃ t', step { s with st := st, reports := reports } = .next t' ∧ { t' with st := t.st, reports := t.reports } = t

/-- 10_state.md R39, an inference the spec marks as its own: a stack slot at or above SP is unobservable: two states that differ only
in such slots step to states that differ only in slots at or above the new SP. -/
def Obligations.DeadStackSlotsAreUnobservable : Prop :=
  ∀ (s t : State) (stack : Vector Word 16), (∀ k : Fin 16, k.val < s.sp.val → stack[k.val] = s.stack[k.val]) →
    step s = .next t →
    ∃ t', step { s with stack := stack } = .next t' ∧ { t' with stack := t.stack } = t ∧
      ∀ k : Fin 16, k.val < t.sp.val → t'.stack[k.val] = t.stack[k.val]

/-- 40_control_flow.md R129, an inference the spec marks as its own: a call, then anything that leaves SP and the stack as the call
left them, then a return: PC is the address after the call and SP is as before it. -/
def Obligations.CallThenReturnComesBack : Prop :=
  ∀ (s : State) (nnn : Addr12), s.sp.val < 16 →
    ∃ t, exec (.call nnn) s = .next t ∧
      ∀ u : State, u.sp = t.sp → u.stack = t.stack →
        ∃ w, exec .ret u = .next w ∧ w.pc = s.pc ∧ w.sp = s.sp ∧ w.fault = u.fault

/-- 43_display.md R193, an inference the spec marks as its own: the same draw twice restores every pixel, and the second sets VF
exactly when some pixel under a 1 bit was off before the first. -/
def Obligations.DrawingTwiceRestoresThePixels : Prop :=
  ∀ (s : State) (x y n : Nibble), n.toNat = 0 ∨ s.i.toNat + n.toNat - 1 ≤ 0xFFF →
    ∃ t, exec (.draw x y n) s = .next t ∧
      (t.getV x = s.getV x → t.getV y = s.getV y →
        ∃ u, exec (.draw x y n) t = .next u ∧ (∀ c r, u.fb.pixel c r = s.fb.pixel c r) ∧
          ((∃ c r, spriteCovers s x y n c r ∧ s.fb.pixel c r = false) → u.getV 0xF#4 = 0x01#8) ∧
          ((∀ c r, spriteCovers s x y n c r → s.fb.pixel c r = true) → u.getV 0xF#4 = 0x00#8))

/-- 43_display.md R194, an inference the spec marks as its own: drawn from the last column and the last row, a sprite goes on from
column 0 and row 0. -/
def Obligations.DrawWrapsAtBothEdges : Prop :=
  ∀ (s : State) (x y n : Nibble), s.getV x = 63#8 → s.getV y = 31#8 → 2 ≤ n.toNat → s.i.toNat + n.toNat - 1 ≤ 0xFFF →
    ∃ t, exec (.draw x y n) s = .next t ∧
      t.fb.pixel 63 31 = (s.fb.pixel 63 31 ^^ (s.mem.read s.i.toNat).getLsbD 7) ∧
      t.fb.pixel 0 31 = (s.fb.pixel 0 31 ^^ (s.mem.read s.i.toNat).getLsbD 6) ∧
      t.fb.pixel 63 0 = (s.fb.pixel 63 0 ^^ (s.mem.read (s.i.toNat + 1)).getLsbD 7) ∧
      t.fb.pixel 0 0 = (s.fb.pixel 0 0 ^^ (s.mem.read (s.i.toNat + 1)).getLsbD 6)

/-- 20_memory.md R74, an inference the spec marks as its own: the next fetch of a word that store-regs has just written gives the
registers stored, the first its high byte. -/
def Obligations.FetchSeesStoredRegisters : Prop :=
  ∀ (s : State) (x : Nibble), s.mem.wf → 1 ≤ x.toNat → 0x050 ≤ s.i.toNat → s.i.toNat + x.toNat ≤ 0xFFF →
    ∃ t, exec (.storeRegs x) s = .next t ∧
      (fetch16 t.mem s.i.toNat).toNat = 256 * (s.getV 0x0#4).toNat + (s.getV 0x1#4).toNat

/-- 70_reset_and_hazards.md R278, an inference the spec marks as its own: with nothing loaded the core reports `0000` and walks two
bytes per step, for 1792 steps, and the next step takes FetchOutOfBounds at 0x1000. -/
def Obligations.EmptyMemoryIsWalkedToItsEnd : Prop :=
  (∀ k ≤ 1792, Host.Core.run core k State.reset =
    .next { State.reset with pc := BitVec.ofNat 16 (0x200 + 2 * k), reports := List.replicate k 0x0000#16 }) ∧
  Host.Core.run core 1793 State.reset =
    .next { State.reset with pc := 0x1000#16, reports := List.replicate 1792 0x0000#16,
                             fault := some (.fetchOutOfBounds 0x1000#16) }

/-- 70_reset_and_hazards.md R285 with 40_control_flow.md R121: once a run has ended in a jump to itself, no number of steps changes
anything: the core does not stop, and nothing moves. -/
def Obligations.EndedRunsStayAsTheyAre : Prop :=
  ∀ (s : State) (k : Nat), s.ended → Host.Core.run core k s = .next s

/-- 44_input_timers.md R212 with 70_reset_and_hazards.md R283: wait-key with no key pressed leaves the whole state as it was, for any
number of steps: an infinite run, not a fault. -/
def Obligations.WaitKeyWithNoKeyRunsForever : Prop :=
  ∀ (s : State) (x : Nibble) (k : Nat), s.fault = none → s.pc.toNat ≤ 0xFFE →
    fetch16 s.mem s.pc.toNat = 0xF#4 ++ x ++ 0x0A#8 → (∀ j : Fin 16, s.key[j.val] = false) →
    Host.Core.run core k s = .next s

/-! ### The host's transactions -/

/-- 70_reset_and_hazards.md R270: create() builds the reset state from any state, a faulted one too. The last clause sets the model's
own draw counter, which the spec does not have, aside (log entry 4). -/
def Obligations.CreateBuildsTheResetState : Prop :=
  ∀ s : State, ∃ t, transact .create s = (t, .ok) ∧
    (∀ a < 80, t.mem.read a = Config.fontData a) ∧ Config.fontData 0 = 0xF0#8 ∧
    (∀ a, 80 ≤ a → a < 4096 → t.mem.read a = 0x00#8) ∧
    (∀ x, t.getV x = 0x00#8) ∧ (∀ k : Fin 16, t.key[k.val] = false) ∧ (∀ k : Fin 16, t.stack[k.val] = 0x0000#16) ∧
    t.i = 0x0000#16 ∧ t.pc = 0x0200#16 ∧ t.sp.val = 0 ∧ t.dt = 0x00#8 ∧ t.st = 0x00#8 ∧
    (∀ c r, t.fb.pixel c r = false) ∧ t.fault = none ∧ t.reports = [] ∧
    { t with draws := 0 } = State.reset

/-- 70_reset_and_hazards.md R275: tick_timers() takes 1 from both timers, floored at 0, and changes nothing else; a halted core
refuses it. -/
def Obligations.TickDecrementsBothTimersToZero : Prop :=
  ∀ s : State,
    (s.fault = none → ∃ t, transact .tickTimers s = (t, .ok) ∧ t.dt.toNat = s.dt.toNat - 1 ∧ t.st.toNat = s.st.toNat - 1 ∧
      unchangedBut (fun p => p = .dt ∨ p = .st) s t) ∧
    (s.fault ≠ none → (transact .tickTimers s).1 = s)

/-- 70_reset_and_hazards.md R276: set_key records the level of one key; an index outside 0..15 is an error that changes nothing; a
halted core refuses it. -/
def Obligations.SetKeyRecordsOneKey : Prop :=
  ∀ (s : State) (index : Int) (pressed : Bool),
    (∀ k : Fin 16, s.fault = none → index = (k.val : Int) → ∃ t, transact (.setKey index pressed) s = (t, .ok) ∧
      t.key[k.val] = pressed ∧ unchangedBut (fun p => p = .key k) s t) ∧
    (s.fault = none → (index < 0 ∨ 16 ≤ index) → transact (.setKey index pressed) s = (s, .keyIndexInvalid index)) ∧
    (s.fault ≠ none → (transact (.setKey index pressed) s).1 = s)

/-- 70_reset_and_hazards.md R274: load_program copies the image to 0x200 upwards (read back where memory is in its canonical form)
and changes nothing else, not PC; an image of more than 3584 bytes is an error and no byte is written; a halted core refuses it. -/
def Obligations.LoadProgramCopiesTheImageOrRejectsIt : Prop :=
  ∀ (s : State) (bytes : List Byte),
    (s.fault = none → bytes.length ≤ 3584 → ∃ t, transact (.loadProgram bytes) s = (t, .ok) ∧
      (s.mem.wf → ∀ k (h : k < bytes.length), t.mem.read (0x200 + k) = bytes[k]) ∧
      unchangedBut (fun p => ∃ k < bytes.length, p = .memByte (0x200 + k)) s t) ∧
    (s.fault = none → 3584 < bytes.length → transact (.loadProgram bytes) s = (s, .loadTooLarge bytes.length)) ∧
    (s.fault ≠ none → (transact (.loadProgram bytes) s).1 = s)
end

