-- ==== Sys2Proof/Laws/Decode.lean ====
section
/-! SUPPORT. The fields of each format: what a field read gives on a word built from fields, and a word rebuilt from its fields. -/

namespace Sys2Proof

theorem formA_d1 (c : Nibble) (a : Addr12) : fieldD1 (formA c a) = c := by
  apply BitVec.eq_of_getLsbD_eq
  intro k hk
  simp only [fieldD1, formA, BitVec.getLsbD_extractLsb', BitVec.getLsbD_append]
  simp [hk]

theorem formA_nnn (c : Nibble) (a : Addr12) : fieldNNN (formA c a) = a := by
  apply BitVec.eq_of_getLsbD_eq
  intro k hk
  simp only [fieldNNN, formA, BitVec.getLsbD_extractLsb', BitVec.getLsbD_append]
  simp [hk]

theorem formXI_d1 (c x : Nibble) (nn : Byte) : fieldD1 (formXI c x nn) = c := by
  apply BitVec.eq_of_getLsbD_eq
  intro k hk
  simp only [fieldD1, formXI, BitVec.getLsbD_extractLsb', BitVec.getLsbD_append]
  simp [hk, show ¬ 12 + k < 8 by omega, show ¬ 12 + k - 8 < 4 by omega, show 12 + k - 8 - 4 = k by omega]

theorem formXI_x (c x : Nibble) (nn : Byte) : fieldX (formXI c x nn) = x := by
  apply BitVec.eq_of_getLsbD_eq
  intro k hk
  simp only [fieldX, formXI, BitVec.getLsbD_extractLsb', BitVec.getLsbD_append]
  simp [hk]

theorem formXI_nn (c x : Nibble) (nn : Byte) : fieldNN (formXI c x nn) = nn := by
  apply BitVec.eq_of_getLsbD_eq
  intro k hk
  simp only [fieldNN, formXI, BitVec.getLsbD_extractLsb', BitVec.getLsbD_append]
  simp [hk]

theorem formXYN_d1 (c x y n : Nibble) : fieldD1 (formXYN c x y n) = c := by
  apply BitVec.eq_of_getLsbD_eq
  intro k hk
  simp only [fieldD1, formXYN, BitVec.getLsbD_extractLsb', BitVec.getLsbD_append]
  simp [hk, show ¬ 12 + k < 4 by omega, show ¬ 12 + k - 4 < 4 by omega, show ¬ 12 + k - 4 - 4 < 4 by omega,
    show 12 + k - 4 - 4 - 4 = k by omega]

theorem formXYN_x (c x y n : Nibble) : fieldX (formXYN c x y n) = x := by
  apply BitVec.eq_of_getLsbD_eq
  intro k hk
  simp only [fieldX, formXYN, BitVec.getLsbD_extractLsb', BitVec.getLsbD_append]
  simp [hk, show ¬ 8 + k < 4 by omega, show ¬ 8 + k - 4 < 4 by omega, show 8 + k - 4 - 4 = k by omega]

theorem formXYN_y (c x y n : Nibble) : fieldY (formXYN c x y n) = y := by
  apply BitVec.eq_of_getLsbD_eq
  intro k hk
  simp only [fieldY, formXYN, BitVec.getLsbD_extractLsb', BitVec.getLsbD_append]
  simp [hk]

theorem formXYN_n (c x y n : Nibble) : fieldN (formXYN c x y n) = n := by
  apply BitVec.eq_of_getLsbD_eq
  intro k hk
  simp only [fieldN, formXYN, BitVec.getLsbD_extractLsb', BitVec.getLsbD_append]
  simp [hk]

/-- A word is its class nibble and its address field. -/
theorem word_eq_formA (op : Word) : op = formA (fieldD1 op) (fieldNNN op) := by
  apply BitVec.eq_of_getLsbD_eq
  intro k hk
  simp only [fieldD1, fieldNNN, formA, BitVec.getLsbD_extractLsb', BitVec.getLsbD_append]
  by_cases h : k < 12
  · simp [h]
  · simp [h, show k - 12 < 4 by omega, show 12 + (k - 12) = k by omega]

/-- A word is its class nibble, X and NN. -/
theorem word_eq_formXI (op : Word) : op = formXI (fieldD1 op) (fieldX op) (fieldNN op) := by
  apply BitVec.eq_of_getLsbD_eq
  intro k hk
  simp only [fieldD1, fieldX, fieldNN, formXI, BitVec.getLsbD_extractLsb', BitVec.getLsbD_append]
  by_cases h : k < 8
  · simp [h]
  · by_cases h' : k - 8 < 4
    · simp [h, h', show 8 + (k - 8) = k by omega]
    · simp [h, h', show k - 8 - 4 < 4 by omega, show 12 + (k - 8 - 4) = k by omega]

/-- A word is its four nibbles. -/
theorem word_eq_formXYN (op : Word) : op = formXYN (fieldD1 op) (fieldX op) (fieldY op) (fieldN op) := by
  apply BitVec.eq_of_getLsbD_eq
  intro k hk
  simp only [fieldD1, fieldX, fieldY, fieldN, formXYN, BitVec.getLsbD_extractLsb', BitVec.getLsbD_append]
  by_cases h : k < 4
  · simp [h]
  · by_cases h' : k - 4 < 4
    · simp [h, h', show 4 + (k - 4) = k by omega]
    · by_cases h'' : k - 4 - 4 < 4
      · simp [h, h', h'', show 8 + (k - 4 - 4) = k by omega]
      · simp [h, h', h'', show k - 4 - 4 - 4 < 4 by omega, show 12 + (k - 4 - 4 - 4) = k by omega]

/-- Two bytes laid out and combined again are the word they came from (20_memory.md R62). -/
theorem bigEndian_wordBytes (op : Word) : bigEndian (wordBytes op).1 (wordBytes op).2 = op := by
  apply BitVec.eq_of_getLsbD_eq
  intro k hk
  simp only [bigEndian, wordBytes, BitVec.getLsbD_append, BitVec.getLsbD_extractLsb']
  by_cases h : k < 8
  · simp [h]
  · simp [h, show k - 8 < 8 by omega, show 8 + (k - 8) = k by omega]

end Sys2Proof
end

