-- ==== Sys2Proof/Laws/Display.lean ====
section
/-! SUPPORT. What a draw does, pixel by pixel: it toggles exactly the pixels its 1 bits land on, each once (within a row the eight
columns are distinct modulo 64, and the rows distinct modulo 32), and the collision flag says whether one of them was on. -/

namespace Sys2Proof.Machine

@[simp] theorem blankScreen_pixel (c : Fin 64) (r : Fin 32) : blankScreen.pixel c r = false := by
  simp [blankScreen, FrameBuffer.pixel]

/-- A toggle flips the pixel named and no other. -/
theorem FrameBuffer.toggle_pixel (fb : FrameBuffer) (c c' : Fin 64) (r r' : Fin 32) :
    (fb.toggle c r).pixel c' r' = if c' = c ∧ r' = r then !fb.pixel c' r' else fb.pixel c' r' := by
  simp only [FrameBuffer.toggle, FrameBuffer.pixel, Vector.getElem_set]
  by_cases hc : c' = c
  · subst hc
    by_cases hr : r' = r
    · subst hr; simp
    · have : r.val ≠ r'.val := fun e => hr (Fin.ext e.symm)
      simp [hr, this]
  · have : c.val ≠ c'.val := fun e => hc (Fin.ext e.symm)
    simp [hc, this]

/-- A 1 bit of row byte `b`, at one of the first `n` column offsets, lands on column `c`. -/
abbrev rowCovers (x0 b : Byte) (n : Nat) (c : Fin 64) : Prop := ∃ col < n, b.getLsbD (7 - col) = true ∧ c = wrapColumn x0 col

/-- A 1 bit of the rows `bs`, the first of them numbered `row`, lands on pixel (c, r). -/
abbrev rowsCover (x0 y0 : Byte) (row : Nat) (bs : List Byte) (c : Fin 64) (r : Fin 32) : Prop :=
  ∃ (k : Nat) (h : k < bs.length), rowCovers x0 bs[k] 8 c ∧ r = wrapRow y0 (row + k)

theorem wrapColumn_inj {x0 : Byte} {a b : Nat} (ha : a < 64) (hb : b < 64) (h : wrapColumn x0 a = wrapColumn x0 b) : a = b := by
  simp only [wrapColumn, Config.displayW, Fin.mk.injEq] at h
  omega

theorem wrapRow_inj {y0 : Byte} {a b : Nat} (h : wrapRow y0 a = wrapRow y0 b) (hab : a < b + 32) (hba : b < a + 32) : a = b := by
  simp only [wrapRow, Config.displayH, Fin.mk.injEq] at h
  omega

/-- The first `n` bits of a row, `n` at most 8: the pixels and the collision flag. -/
theorem foldl_drawBit (x0 y0 : Byte) (row : Nat) (b : Byte) (d : Drawing) (n : Nat) (hn : n ≤ 64) :
    (∀ c r, ((List.range n).foldl (drawBit x0 y0 row b) d).1.pixel c r =
      (d.1.pixel c r ^^ decide (rowCovers x0 b n c ∧ r = wrapRow y0 row))) ∧
    (((List.range n).foldl (drawBit x0 y0 row b) d).2 = true ↔
      d.2 = true ∨ ∃ c, rowCovers x0 b n c ∧ d.1.pixel c (wrapRow y0 row) = true) := by
  induction n with
  | zero =>
    have none : ∀ c, ¬ rowCovers x0 b 0 c := by
      rintro c ⟨col, hcol, -⟩
      omega
    simp only [none, List.range_zero, List.foldl_nil, false_and, decide_false, Bool.bne_false, exists_false, or_false,
      implies_true, and_self]
  | succ n ih =>
    obtain ⟨ihp, ihc⟩ := ih (by omega)
    rw [List.range_succ, List.foldl_append, List.foldl_cons, List.foldl_nil]
    generalize (List.range n).foldl (drawBit x0 y0 row b) d = e at ihp ihc
    have split_cover : ∀ c, rowCovers x0 b (n + 1) c ↔
        rowCovers x0 b n c ∨ (b.getLsbD (7 - n) = true ∧ c = wrapColumn x0 n) := by
      intro c
      constructor
      · rintro ⟨col, hcol, hb, hc⟩
        rcases Nat.lt_succ_iff_lt_or_eq.mp hcol with h | rfl
        · exact .inl ⟨col, h, hb, hc⟩
        · exact .inr ⟨hb, hc⟩
      · rintro (⟨col, hcol, hb, hc⟩ | ⟨hb, hc⟩)
        · exact ⟨col, by omega, hb, hc⟩
        · exact ⟨n, by omega, hb, hc⟩
    have not_before : ∀ c, c = wrapColumn x0 n → ¬ rowCovers x0 b n c := by
      rintro c rfl ⟨col, hcol, -, hc⟩
      have := wrapColumn_inj (by omega) (by omega) hc
      omega
    by_cases hbit : b.getLsbD (7 - n) = true
    · simp only [drawBit, hbit, if_true]
      refine ⟨fun c r => ?_, ?_⟩
      · rw [FrameBuffer.toggle_pixel, ihp]
        by_cases hcr : c = wrapColumn x0 n ∧ r = wrapRow y0 row
        · rw [if_pos hcr]
          have h1 := not_before c hcr.1
          have h2 : rowCovers x0 b (n + 1) c := (split_cover c).mpr (.inr ⟨hbit, hcr.1⟩)
          simp only [h1, h2, hcr.2, false_and, true_and, decide_false, decide_true, Bool.bne_false, Bool.bne_true]
        · rw [if_neg hcr]
          have : (rowCovers x0 b (n + 1) c ∧ r = wrapRow y0 row) ↔ (rowCovers x0 b n c ∧ r = wrapRow y0 row) := by
            rw [split_cover]
            constructor
            · rintro ⟨h | ⟨-, h⟩, hr⟩
              · exact ⟨h, hr⟩
              · exact absurd ⟨h, hr⟩ hcr
            · rintro ⟨h, hr⟩
              exact ⟨.inl h, hr⟩
          rw [decide_eq_decide.mpr this]
      · have hpix : e.1.pixel (wrapColumn x0 n) (wrapRow y0 row) = d.1.pixel (wrapColumn x0 n) (wrapRow y0 row) := by
          rw [ihp]
          have := not_before _ rfl
          simp [this]
        rw [Bool.or_eq_true, ihc, hpix]
        constructor
        · rintro ((h | ⟨c, hc, hp⟩) | h)
          · exact .inl h
          · exact .inr ⟨c, (split_cover c).mpr (.inl hc), hp⟩
          · exact .inr ⟨_, (split_cover _).mpr (.inr ⟨hbit, rfl⟩), h⟩
        · rintro (h | ⟨c, hc, hp⟩)
          · exact .inl (.inl h)
          · rcases (split_cover c).mp hc with hc | ⟨-, rfl⟩
            · exact .inl (.inr ⟨c, hc, hp⟩)
            · exact .inr hp
    · have same : ∀ c, rowCovers x0 b (n + 1) c ↔ rowCovers x0 b n c := by
        intro c
        rw [split_cover]
        exact ⟨fun h => h.resolve_right fun h => hbit h.1, .inl⟩
      have hfalse : b.getLsbD (7 - n) = false := by simpa using hbit
      simp only [drawBit, hfalse, Bool.false_eq_true, if_false]
      refine ⟨fun c r => ?_, ?_⟩
      · rw [ihp, decide_eq_decide.mpr (and_congr_left fun _ => same c)]
      · rw [ihc]
        simp only [same]

/-- One sprite row: exactly the pixels under its 1 bits flip, and the flag says whether one of them was on. -/
theorem drawRow_spec (x0 y0 : Byte) (row : Nat) (b : Byte) (d : Drawing) :
    (∀ c r, (drawRow x0 y0 row b d).1.pixel c r = (d.1.pixel c r ^^ decide (rowCovers x0 b 8 c ∧ r = wrapRow y0 row))) ∧
    ((drawRow x0 y0 row b d).2 = true ↔
      d.2 = true ∨ ∃ c, rowCovers x0 b 8 c ∧ d.1.pixel c (wrapRow y0 row) = true) :=
  foldl_drawBit x0 y0 row b d 8 (by omega)

theorem rowsCover_cons (x0 y0 : Byte) (row : Nat) (b : Byte) (bs : List Byte) (c : Fin 64) (r : Fin 32) :
    rowsCover x0 y0 row (b :: bs) c r ↔
      (rowCovers x0 b 8 c ∧ r = wrapRow y0 row) ∨ rowsCover x0 y0 (row + 1) bs c r := by
  constructor
  · rintro ⟨k, hk, hc, hr⟩
    cases k with
    | zero => exact .inl ⟨hc, hr⟩
    | succ k => exact .inr ⟨k, by simpa using hk, by simpa using hc, by simpa [Nat.add_assoc, Nat.add_comm 1 k] using hr⟩
  · rintro (⟨hc, hr⟩ | ⟨k, hk, hc, hr⟩)
    · exact ⟨0, by simp, hc, hr⟩
    · exact ⟨k + 1, by simpa using hk, by simpa using hc, by simpa [Nat.add_assoc, Nat.add_comm 1 k] using hr⟩

/-- A whole sprite of at most 32 rows: exactly the pixels under its 1 bits flip, and the flag says whether one of them was on. -/
theorem drawRows_spec (x0 y0 : Byte) (bs : List Byte) : ∀ (row : Nat) (d : Drawing), bs.length ≤ 32 →
    (∀ c r, (drawRows x0 y0 row bs d).1.pixel c r = (d.1.pixel c r ^^ decide (rowsCover x0 y0 row bs c r))) ∧
    ((drawRows x0 y0 row bs d).2 = true ↔
      d.2 = true ∨ ∃ c r, rowsCover x0 y0 row bs c r ∧ d.1.pixel c r = true) := by
  induction bs with
  | nil =>
    intro row d _
    simp [drawRows, rowsCover]
  | cons b bs ih =>
    intro row d hlen
    simp only [List.length_cons] at hlen
    obtain ⟨hp, hc⟩ := drawRow_spec x0 y0 row b d
    obtain ⟨ip, ic⟩ := ih (row + 1) (drawRow x0 y0 row b d) (by omega)
    have apart : ∀ c r, rowsCover x0 y0 (row + 1) bs c r → r ≠ wrapRow y0 row := by
      rintro c r ⟨k, hk, -, hr⟩ h
      have := wrapRow_inj (hr.symm.trans h) (by omega) (by omega)
      omega
    rw [drawRows]
    refine ⟨fun c r => ?_, ?_⟩
    · rw [ip, hp]
      simp only [rowsCover_cons]
      by_cases h : rowsCover x0 y0 (row + 1) bs c r
      · have h' := apart c r h
        simp only [h, h', and_false, or_true, decide_false, decide_true, Bool.bne_false]
      · simp only [h, or_false, decide_false, Bool.bne_false]
    · rw [ic, hc]
      simp only [hp, rowsCover_cons]
      constructor
      · rintro ((h | ⟨c, hc, h⟩) | ⟨c, r, hcr, h⟩)
        · exact .inl h
        · exact .inr ⟨c, _, .inl ⟨hc, rfl⟩, h⟩
        · have h' := apart c r hcr
          simp only [h', and_false, decide_false, Bool.bne_false] at h
          exact .inr ⟨c, r, .inr hcr, h⟩
      · rintro (h | ⟨c, r, ⟨hc, rfl⟩ | hcr, h⟩)
        · exact .inl (.inl h)
        · exact .inl (.inr ⟨c, hc, h⟩)
        · have h' := apart c r hcr
          refine .inr ⟨c, r, hcr, ?_⟩
          simpa only [h', and_false, decide_false, Bool.bne_false] using h

end Sys2Proof.Machine
end

