-- ==== Sys2Proof/Laws/Memory.lean ====
section
/-! SUPPORT. What the memory operations do: a read after a write, the frame of a write, the bytes of a range after it is written,
and that every memory operation keeps the canonical form. -/

namespace Sys2Proof.Machine

@[simp] theorem Memory.read_nil (a : Nat) : Memory.read [] a = initialByte a := rfl

/-- Above the font table the reset byte is zero. -/
theorem initialByte_above_font {a : Nat} (h : Config.fontSize ≤ a) : initialByte a = 0x00#8 := by
  simp only [initialByte, Config.fontSize, Config.fontBase] at *
  rw [if_neg (by omega)]

/-- In the font table the reset byte is the font byte. -/
theorem initialByte_font {a : Nat} (h : a < Config.fontSize) : initialByte (Config.fontBase + a) = Config.fontData a := by
  simp only [initialByte, Config.fontSize, Config.fontBase, Nat.zero_add] at *
  rw [if_pos ⟨Nat.zero_le _, h⟩, Nat.sub_zero]

/-! ### Frames -/

theorem Memory.read_put_other (m : Memory) {a b : Nat} (v : Byte) (h : b ≠ a) : (m.put a v).read b = m.read b := by
  induction m with
  | nil =>
    simp only [Memory.put]
    split
    · rfl
    · simp [Memory.read, h]
  | cons p m ih =>
    obtain ⟨c, w⟩ := p
    simp only [Memory.put]
    split
    · split
      · rfl
      · simp [Memory.read, h]
    · split
      · next hac =>
        subst hac
        split <;> simp [Memory.read, h]
      · simp only [Memory.read, ih]

/-- A write leaves every other address alone. -/
theorem Memory.read_write_other (m : Memory) {a b : Nat} (v : Byte) (h : b ≠ a) : (m.write a v).read b = m.read b := by
  simp only [Memory.write]
  split
  · exact Memory.read_put_other m v h
  · rfl

/-- A range write leaves every address outside the range alone. -/
theorem Memory.read_writeRange_other (bs : List Byte) (m : Memory) {a b : Nat} (h : b < a ∨ a + bs.length ≤ b) :
    (m.writeRange a bs).read b = m.read b := by
  induction bs generalizing m a with
  | nil => rfl
  | cons v bs ih =>
    simp only [List.length_cons] at h
    rw [Memory.writeRange, ih _ (by omega), Memory.read_write_other _ _ (by omega)]

/-! ### Reading back -/

/-- Below every listed address nothing is listed. -/
theorem Memory.read_below {m : Memory} {a : Nat} (h : ∀ p ∈ m, a < p.1) : m.read a = initialByte a := by
  induction m with
  | nil => rfl
  | cons p m ih =>
    have hp := h p (by simp)
    rw [Memory.read, if_neg (by omega), ih fun q hq => h q (List.mem_cons_of_mem _ hq)]

theorem Memory.read_put_same {m : Memory} (hs : m.Pairwise (fun p q => p.1 < q.1)) (a : Nat) (v : Byte) :
    (m.put a v).read a = v := by
  induction m with
  | nil =>
    simp only [Memory.put]
    split
    · next h => simp [h]
    · simp [Memory.read]
  | cons p m ih =>
    obtain ⟨c, w⟩ := p
    obtain ⟨hc, hm⟩ := List.pairwise_cons.mp hs
    simp only [Memory.put]
    split
    · next hac =>
      split
      · next hv =>
        rw [hv]
        refine Memory.read_below fun q hq => ?_
        rcases List.mem_cons.mp hq with rfl | hq
        · exact hac
        · exact Nat.lt_trans hac (hc q hq)
      · simp [Memory.read]
    · split
      · next hac =>
        split
        · next hv =>
          rw [hv]
          exact Memory.read_below fun q hq => hac ▸ hc q hq
        · simp [Memory.read]
      · next hac => simp [Memory.read, hac, ih hm]

/-- A read after a write to the same address gives the byte written. -/
theorem Memory.read_write_same {m : Memory} (hm : m.wf) {a : Nat} (ha : a < Config.memSize) (v : Byte) :
    (m.write a v).read a = v := by
  rw [Memory.write, if_pos ha]
  exact Memory.read_put_same hm.1 a v

/-! ### The canonical form is kept -/

theorem Memory.mem_put {m : Memory} {a : Nat} {v : Byte} {p : Host.Cell} (h : p ∈ m.put a v) :
    p ∈ m ∨ (p = (a, v) ∧ v ≠ initialByte a) := by
  induction m with
  | nil =>
    simp only [Memory.put] at h
    split at h
    · simp at h
    · next hv => exact .inr ⟨by simpa using h, hv⟩
  | cons q m ih =>
    obtain ⟨c, w⟩ := q
    simp only [Memory.put] at h
    split at h
    · split at h
      · exact .inl h
      · next hv =>
        rcases List.mem_cons.mp h with rfl | h
        · exact .inr ⟨rfl, hv⟩
        · exact .inl h
    · split at h
      · split at h
        · exact .inl (List.mem_cons_of_mem _ h)
        · next hv =>
          rcases List.mem_cons.mp h with rfl | h
          · exact .inr ⟨rfl, hv⟩
          · exact .inl (List.mem_cons_of_mem _ h)
      · rcases List.mem_cons.mp h with rfl | h
        · exact .inl (by simp)
        · rcases ih h with h | h
          · exact .inl (List.mem_cons_of_mem _ h)
          · exact .inr h

theorem Memory.put_sorted {m : Memory} (hs : m.Pairwise (fun p q => p.1 < q.1)) (a : Nat) (v : Byte) :
    (m.put a v).Pairwise (fun p q => p.1 < q.1) := by
  induction m with
  | nil =>
    simp only [Memory.put]
    split <;> simp
  | cons p m ih =>
    obtain ⟨c, w⟩ := p
    have hcm := List.pairwise_cons.mp hs
    simp only [Memory.put]
    split
    · next hac =>
      split
      · exact hs
      · refine List.pairwise_cons.mpr ⟨fun q hq => ?_, hs⟩
        rcases List.mem_cons.mp hq with rfl | hq
        · exact hac
        · exact Nat.lt_trans hac (hcm.1 q hq)
    · split
      · next hac =>
        split
        · exact hcm.2
        · exact List.pairwise_cons.mpr ⟨fun q hq => hac ▸ hcm.1 q hq, hcm.2⟩
      · refine List.pairwise_cons.mpr ⟨fun q hq => ?_, ih hcm.2⟩
        rcases Memory.mem_put hq with hq | ⟨rfl, _⟩
        · exact hcm.1 q hq
        · simp only; omega

@[simp] theorem Memory.wf_nil : Memory.wf [] := by simp [Memory.wf]

/-- A write keeps the canonical form. -/
theorem Memory.write_wf {m : Memory} (hm : m.wf) (a : Nat) (v : Byte) : (m.write a v).wf := by
  rw [Memory.write]
  split
  · next ha =>
    refine ⟨Memory.put_sorted hm.1 a v, fun p hp => ?_⟩
    rcases Memory.mem_put hp with hp | ⟨rfl, hv⟩
    · exact hm.2 p hp
    · exact ⟨ha, hv⟩
  · exact hm

/-- A range write keeps the canonical form. -/
theorem Memory.writeRange_wf (bs : List Byte) {m : Memory} (hm : m.wf) (a : Nat) : (m.writeRange a bs).wf := by
  induction bs generalizing m a with
  | nil => exact hm
  | cons v bs ih => exact ih (Memory.write_wf hm a v) (a + 1)

/-- A range read after a range write inside memory gives the bytes written. -/
theorem Memory.read_writeRange_same (bs : List Byte) {m : Memory} (hm : m.wf) {a k : Nat} (hk : k < bs.length)
    (ha : a + bs.length ≤ Config.memSize) : (m.writeRange a bs).read (a + k) = bs[k] := by
  induction bs generalizing m a k with
  | nil => simp at hk
  | cons v bs ih =>
    simp only [List.length_cons] at hk ha
    rw [Memory.writeRange]
    cases k with
    | zero =>
      rw [Memory.read_writeRange_other _ _ (by omega)]
      exact Memory.read_write_same hm (by omega) v
    | succ k =>
      have := ih (Memory.write_wf hm a v) (a := a + 1) (k := k) (by omega) (by omega)
      simpa [Nat.add_assoc, Nat.add_comm 1 k] using this

@[simp] theorem Memory.length_readRange (m : Memory) (a n : Nat) : (m.readRange a n).length = n := by
  simp [Memory.readRange]

@[simp] theorem Memory.getElem_readRange (m : Memory) (a n k : Nat) (h : k < (m.readRange a n).length) :
    (m.readRange a n)[k] = m.read (a + k) := by
  simp [Memory.readRange]

end Sys2Proof.Machine
end

