-- ==== Sys2Proof/Laws/State.lean ====
section
/-! SUPPORT. One lemma per field per update of the state, each true by rfl, so that no later proof unfolds a record update; and
what a register read gives after each update. -/

namespace Sys2Proof.Machine

/-! ### State.setV -/

@[simp] theorem State.setV_mem (s : State) (x : Nibble) (b : Byte) :
    (s.setV x b).mem = s.mem := rfl
@[simp] theorem State.setV_v (s : State) (x : Nibble) (b : Byte) :
    (s.setV x b).v = s.v.set x.toNat b x.isLt := rfl
@[simp] theorem State.setV_i (s : State) (x : Nibble) (b : Byte) :
    (s.setV x b).i = s.i := rfl
@[simp] theorem State.setV_pc (s : State) (x : Nibble) (b : Byte) :
    (s.setV x b).pc = s.pc := rfl
@[simp] theorem State.setV_stack (s : State) (x : Nibble) (b : Byte) :
    (s.setV x b).stack = s.stack := rfl
@[simp] theorem State.setV_sp (s : State) (x : Nibble) (b : Byte) :
    (s.setV x b).sp = s.sp := rfl
@[simp] theorem State.setV_dt (s : State) (x : Nibble) (b : Byte) :
    (s.setV x b).dt = s.dt := rfl
@[simp] theorem State.setV_st (s : State) (x : Nibble) (b : Byte) :
    (s.setV x b).st = s.st := rfl
@[simp] theorem State.setV_key (s : State) (x : Nibble) (b : Byte) :
    (s.setV x b).key = s.key := rfl
@[simp] theorem State.setV_fb (s : State) (x : Nibble) (b : Byte) :
    (s.setV x b).fb = s.fb := rfl
@[simp] theorem State.setV_fault (s : State) (x : Nibble) (b : Byte) :
    (s.setV x b).fault = s.fault := rfl
@[simp] theorem State.setV_reports (s : State) (x : Nibble) (b : Byte) :
    (s.setV x b).reports = s.reports := rfl
@[simp] theorem State.setV_draws (s : State) (x : Nibble) (b : Byte) :
    (s.setV x b).draws = s.draws := rfl

/-! ### State.setRegs -/

@[simp] theorem State.setRegs_mem (s : State) (w : Vector Byte 16) :
    (s.setRegs w).mem = s.mem := rfl
@[simp] theorem State.setRegs_v (s : State) (w : Vector Byte 16) :
    (s.setRegs w).v = w := rfl
@[simp] theorem State.setRegs_i (s : State) (w : Vector Byte 16) :
    (s.setRegs w).i = s.i := rfl
@[simp] theorem State.setRegs_pc (s : State) (w : Vector Byte 16) :
    (s.setRegs w).pc = s.pc := rfl
@[simp] theorem State.setRegs_stack (s : State) (w : Vector Byte 16) :
    (s.setRegs w).stack = s.stack := rfl
@[simp] theorem State.setRegs_sp (s : State) (w : Vector Byte 16) :
    (s.setRegs w).sp = s.sp := rfl
@[simp] theorem State.setRegs_dt (s : State) (w : Vector Byte 16) :
    (s.setRegs w).dt = s.dt := rfl
@[simp] theorem State.setRegs_st (s : State) (w : Vector Byte 16) :
    (s.setRegs w).st = s.st := rfl
@[simp] theorem State.setRegs_key (s : State) (w : Vector Byte 16) :
    (s.setRegs w).key = s.key := rfl
@[simp] theorem State.setRegs_fb (s : State) (w : Vector Byte 16) :
    (s.setRegs w).fb = s.fb := rfl
@[simp] theorem State.setRegs_fault (s : State) (w : Vector Byte 16) :
    (s.setRegs w).fault = s.fault := rfl
@[simp] theorem State.setRegs_reports (s : State) (w : Vector Byte 16) :
    (s.setRegs w).reports = s.reports := rfl
@[simp] theorem State.setRegs_draws (s : State) (w : Vector Byte 16) :
    (s.setRegs w).draws = s.draws := rfl

/-! ### State.setI -/

@[simp] theorem State.setI_mem (s : State) (w : Word) :
    (s.setI w).mem = s.mem := rfl
@[simp] theorem State.setI_v (s : State) (w : Word) :
    (s.setI w).v = s.v := rfl
@[simp] theorem State.setI_i (s : State) (w : Word) :
    (s.setI w).i = w := rfl
@[simp] theorem State.setI_pc (s : State) (w : Word) :
    (s.setI w).pc = s.pc := rfl
@[simp] theorem State.setI_stack (s : State) (w : Word) :
    (s.setI w).stack = s.stack := rfl
@[simp] theorem State.setI_sp (s : State) (w : Word) :
    (s.setI w).sp = s.sp := rfl
@[simp] theorem State.setI_dt (s : State) (w : Word) :
    (s.setI w).dt = s.dt := rfl
@[simp] theorem State.setI_st (s : State) (w : Word) :
    (s.setI w).st = s.st := rfl
@[simp] theorem State.setI_key (s : State) (w : Word) :
    (s.setI w).key = s.key := rfl
@[simp] theorem State.setI_fb (s : State) (w : Word) :
    (s.setI w).fb = s.fb := rfl
@[simp] theorem State.setI_fault (s : State) (w : Word) :
    (s.setI w).fault = s.fault := rfl
@[simp] theorem State.setI_reports (s : State) (w : Word) :
    (s.setI w).reports = s.reports := rfl
@[simp] theorem State.setI_draws (s : State) (w : Word) :
    (s.setI w).draws = s.draws := rfl
@[simp] theorem State.setI_getV (s : State) (w : Word) (y : Nibble) :
    (s.setI w).getV y = s.getV y := rfl

/-! ### State.setPc -/

@[simp] theorem State.setPc_mem (s : State) (w : Word) :
    (s.setPc w).mem = s.mem := rfl
@[simp] theorem State.setPc_v (s : State) (w : Word) :
    (s.setPc w).v = s.v := rfl
@[simp] theorem State.setPc_i (s : State) (w : Word) :
    (s.setPc w).i = s.i := rfl
@[simp] theorem State.setPc_pc (s : State) (w : Word) :
    (s.setPc w).pc = w := rfl
@[simp] theorem State.setPc_stack (s : State) (w : Word) :
    (s.setPc w).stack = s.stack := rfl
@[simp] theorem State.setPc_sp (s : State) (w : Word) :
    (s.setPc w).sp = s.sp := rfl
@[simp] theorem State.setPc_dt (s : State) (w : Word) :
    (s.setPc w).dt = s.dt := rfl
@[simp] theorem State.setPc_st (s : State) (w : Word) :
    (s.setPc w).st = s.st := rfl
@[simp] theorem State.setPc_key (s : State) (w : Word) :
    (s.setPc w).key = s.key := rfl
@[simp] theorem State.setPc_fb (s : State) (w : Word) :
    (s.setPc w).fb = s.fb := rfl
@[simp] theorem State.setPc_fault (s : State) (w : Word) :
    (s.setPc w).fault = s.fault := rfl
@[simp] theorem State.setPc_reports (s : State) (w : Word) :
    (s.setPc w).reports = s.reports := rfl
@[simp] theorem State.setPc_draws (s : State) (w : Word) :
    (s.setPc w).draws = s.draws := rfl
@[simp] theorem State.setPc_getV (s : State) (w : Word) (y : Nibble) :
    (s.setPc w).getV y = s.getV y := rfl

/-! ### State.setDt -/

@[simp] theorem State.setDt_mem (s : State) (b : Byte) :
    (s.setDt b).mem = s.mem := rfl
@[simp] theorem State.setDt_v (s : State) (b : Byte) :
    (s.setDt b).v = s.v := rfl
@[simp] theorem State.setDt_i (s : State) (b : Byte) :
    (s.setDt b).i = s.i := rfl
@[simp] theorem State.setDt_pc (s : State) (b : Byte) :
    (s.setDt b).pc = s.pc := rfl
@[simp] theorem State.setDt_stack (s : State) (b : Byte) :
    (s.setDt b).stack = s.stack := rfl
@[simp] theorem State.setDt_sp (s : State) (b : Byte) :
    (s.setDt b).sp = s.sp := rfl
@[simp] theorem State.setDt_dt (s : State) (b : Byte) :
    (s.setDt b).dt = b := rfl
@[simp] theorem State.setDt_st (s : State) (b : Byte) :
    (s.setDt b).st = s.st := rfl
@[simp] theorem State.setDt_key (s : State) (b : Byte) :
    (s.setDt b).key = s.key := rfl
@[simp] theorem State.setDt_fb (s : State) (b : Byte) :
    (s.setDt b).fb = s.fb := rfl
@[simp] theorem State.setDt_fault (s : State) (b : Byte) :
    (s.setDt b).fault = s.fault := rfl
@[simp] theorem State.setDt_reports (s : State) (b : Byte) :
    (s.setDt b).reports = s.reports := rfl
@[simp] theorem State.setDt_draws (s : State) (b : Byte) :
    (s.setDt b).draws = s.draws := rfl
@[simp] theorem State.setDt_getV (s : State) (b : Byte) (y : Nibble) :
    (s.setDt b).getV y = s.getV y := rfl

/-! ### State.setSt -/

@[simp] theorem State.setSt_mem (s : State) (b : Byte) :
    (s.setSt b).mem = s.mem := rfl
@[simp] theorem State.setSt_v (s : State) (b : Byte) :
    (s.setSt b).v = s.v := rfl
@[simp] theorem State.setSt_i (s : State) (b : Byte) :
    (s.setSt b).i = s.i := rfl
@[simp] theorem State.setSt_pc (s : State) (b : Byte) :
    (s.setSt b).pc = s.pc := rfl
@[simp] theorem State.setSt_stack (s : State) (b : Byte) :
    (s.setSt b).stack = s.stack := rfl
@[simp] theorem State.setSt_sp (s : State) (b : Byte) :
    (s.setSt b).sp = s.sp := rfl
@[simp] theorem State.setSt_dt (s : State) (b : Byte) :
    (s.setSt b).dt = s.dt := rfl
@[simp] theorem State.setSt_st (s : State) (b : Byte) :
    (s.setSt b).st = b := rfl
@[simp] theorem State.setSt_key (s : State) (b : Byte) :
    (s.setSt b).key = s.key := rfl
@[simp] theorem State.setSt_fb (s : State) (b : Byte) :
    (s.setSt b).fb = s.fb := rfl
@[simp] theorem State.setSt_fault (s : State) (b : Byte) :
    (s.setSt b).fault = s.fault := rfl
@[simp] theorem State.setSt_reports (s : State) (b : Byte) :
    (s.setSt b).reports = s.reports := rfl
@[simp] theorem State.setSt_draws (s : State) (b : Byte) :
    (s.setSt b).draws = s.draws := rfl
@[simp] theorem State.setSt_getV (s : State) (b : Byte) (y : Nibble) :
    (s.setSt b).getV y = s.getV y := rfl

/-! ### State.setMem -/

@[simp] theorem State.setMem_mem (s : State) (m : Memory) :
    (s.setMem m).mem = m := rfl
@[simp] theorem State.setMem_v (s : State) (m : Memory) :
    (s.setMem m).v = s.v := rfl
@[simp] theorem State.setMem_i (s : State) (m : Memory) :
    (s.setMem m).i = s.i := rfl
@[simp] theorem State.setMem_pc (s : State) (m : Memory) :
    (s.setMem m).pc = s.pc := rfl
@[simp] theorem State.setMem_stack (s : State) (m : Memory) :
    (s.setMem m).stack = s.stack := rfl
@[simp] theorem State.setMem_sp (s : State) (m : Memory) :
    (s.setMem m).sp = s.sp := rfl
@[simp] theorem State.setMem_dt (s : State) (m : Memory) :
    (s.setMem m).dt = s.dt := rfl
@[simp] theorem State.setMem_st (s : State) (m : Memory) :
    (s.setMem m).st = s.st := rfl
@[simp] theorem State.setMem_key (s : State) (m : Memory) :
    (s.setMem m).key = s.key := rfl
@[simp] theorem State.setMem_fb (s : State) (m : Memory) :
    (s.setMem m).fb = s.fb := rfl
@[simp] theorem State.setMem_fault (s : State) (m : Memory) :
    (s.setMem m).fault = s.fault := rfl
@[simp] theorem State.setMem_reports (s : State) (m : Memory) :
    (s.setMem m).reports = s.reports := rfl
@[simp] theorem State.setMem_draws (s : State) (m : Memory) :
    (s.setMem m).draws = s.draws := rfl
@[simp] theorem State.setMem_getV (s : State) (m : Memory) (y : Nibble) :
    (s.setMem m).getV y = s.getV y := rfl

/-! ### State.setFb -/

@[simp] theorem State.setFb_mem (s : State) (w : FrameBuffer) :
    (s.setFb w).mem = s.mem := rfl
@[simp] theorem State.setFb_v (s : State) (w : FrameBuffer) :
    (s.setFb w).v = s.v := rfl
@[simp] theorem State.setFb_i (s : State) (w : FrameBuffer) :
    (s.setFb w).i = s.i := rfl
@[simp] theorem State.setFb_pc (s : State) (w : FrameBuffer) :
    (s.setFb w).pc = s.pc := rfl
@[simp] theorem State.setFb_stack (s : State) (w : FrameBuffer) :
    (s.setFb w).stack = s.stack := rfl
@[simp] theorem State.setFb_sp (s : State) (w : FrameBuffer) :
    (s.setFb w).sp = s.sp := rfl
@[simp] theorem State.setFb_dt (s : State) (w : FrameBuffer) :
    (s.setFb w).dt = s.dt := rfl
@[simp] theorem State.setFb_st (s : State) (w : FrameBuffer) :
    (s.setFb w).st = s.st := rfl
@[simp] theorem State.setFb_key (s : State) (w : FrameBuffer) :
    (s.setFb w).key = s.key := rfl
@[simp] theorem State.setFb_fb (s : State) (w : FrameBuffer) :
    (s.setFb w).fb = w := rfl
@[simp] theorem State.setFb_fault (s : State) (w : FrameBuffer) :
    (s.setFb w).fault = s.fault := rfl
@[simp] theorem State.setFb_reports (s : State) (w : FrameBuffer) :
    (s.setFb w).reports = s.reports := rfl
@[simp] theorem State.setFb_draws (s : State) (w : FrameBuffer) :
    (s.setFb w).draws = s.draws := rfl
@[simp] theorem State.setFb_getV (s : State) (w : FrameBuffer) (y : Nibble) :
    (s.setFb w).getV y = s.getV y := rfl

/-! ### State.setKey -/

@[simp] theorem State.setKey_mem (s : State) (k : Fin 16) (b : Bool) :
    (s.setKey k b).mem = s.mem := rfl
@[simp] theorem State.setKey_v (s : State) (k : Fin 16) (b : Bool) :
    (s.setKey k b).v = s.v := rfl
@[simp] theorem State.setKey_i (s : State) (k : Fin 16) (b : Bool) :
    (s.setKey k b).i = s.i := rfl
@[simp] theorem State.setKey_pc (s : State) (k : Fin 16) (b : Bool) :
    (s.setKey k b).pc = s.pc := rfl
@[simp] theorem State.setKey_stack (s : State) (k : Fin 16) (b : Bool) :
    (s.setKey k b).stack = s.stack := rfl
@[simp] theorem State.setKey_sp (s : State) (k : Fin 16) (b : Bool) :
    (s.setKey k b).sp = s.sp := rfl
@[simp] theorem State.setKey_dt (s : State) (k : Fin 16) (b : Bool) :
    (s.setKey k b).dt = s.dt := rfl
@[simp] theorem State.setKey_st (s : State) (k : Fin 16) (b : Bool) :
    (s.setKey k b).st = s.st := rfl
@[simp] theorem State.setKey_key (s : State) (k : Fin 16) (b : Bool) :
    (s.setKey k b).key = s.key.set k.val b k.isLt := rfl
@[simp] theorem State.setKey_fb (s : State) (k : Fin 16) (b : Bool) :
    (s.setKey k b).fb = s.fb := rfl
@[simp] theorem State.setKey_fault (s : State) (k : Fin 16) (b : Bool) :
    (s.setKey k b).fault = s.fault := rfl
@[simp] theorem State.setKey_reports (s : State) (k : Fin 16) (b : Bool) :
    (s.setKey k b).reports = s.reports := rfl
@[simp] theorem State.setKey_draws (s : State) (k : Fin 16) (b : Bool) :
    (s.setKey k b).draws = s.draws := rfl
@[simp] theorem State.setKey_getV (s : State) (k : Fin 16) (b : Bool) (y : Nibble) :
    (s.setKey k b).getV y = s.getV y := rfl

/-! ### State.setStack -/

@[simp] theorem State.setStack_mem (s : State) (w : Vector Word 16) (n : Fin 17) :
    (s.setStack w n).mem = s.mem := rfl
@[simp] theorem State.setStack_v (s : State) (w : Vector Word 16) (n : Fin 17) :
    (s.setStack w n).v = s.v := rfl
@[simp] theorem State.setStack_i (s : State) (w : Vector Word 16) (n : Fin 17) :
    (s.setStack w n).i = s.i := rfl
@[simp] theorem State.setStack_pc (s : State) (w : Vector Word 16) (n : Fin 17) :
    (s.setStack w n).pc = s.pc := rfl
@[simp] theorem State.setStack_stack (s : State) (w : Vector Word 16) (n : Fin 17) :
    (s.setStack w n).stack = w := rfl
@[simp] theorem State.setStack_sp (s : State) (w : Vector Word 16) (n : Fin 17) :
    (s.setStack w n).sp = n := rfl
@[simp] theorem State.setStack_dt (s : State) (w : Vector Word 16) (n : Fin 17) :
    (s.setStack w n).dt = s.dt := rfl
@[simp] theorem State.setStack_st (s : State) (w : Vector Word 16) (n : Fin 17) :
    (s.setStack w n).st = s.st := rfl
@[simp] theorem State.setStack_key (s : State) (w : Vector Word 16) (n : Fin 17) :
    (s.setStack w n).key = s.key := rfl
@[simp] theorem State.setStack_fb (s : State) (w : Vector Word 16) (n : Fin 17) :
    (s.setStack w n).fb = s.fb := rfl
@[simp] theorem State.setStack_fault (s : State) (w : Vector Word 16) (n : Fin 17) :
    (s.setStack w n).fault = s.fault := rfl
@[simp] theorem State.setStack_reports (s : State) (w : Vector Word 16) (n : Fin 17) :
    (s.setStack w n).reports = s.reports := rfl
@[simp] theorem State.setStack_draws (s : State) (w : Vector Word 16) (n : Fin 17) :
    (s.setStack w n).draws = s.draws := rfl
@[simp] theorem State.setStack_getV (s : State) (w : Vector Word 16) (n : Fin 17) (y : Nibble) :
    (s.setStack w n).getV y = s.getV y := rfl

/-! ### enterFault -/

@[simp] theorem enterFault_mem (f : Fault) (s : State) :
    (enterFault f s).mem = s.mem := rfl
@[simp] theorem enterFault_v (f : Fault) (s : State) :
    (enterFault f s).v = s.v := rfl
@[simp] theorem enterFault_i (f : Fault) (s : State) :
    (enterFault f s).i = s.i := rfl
@[simp] theorem enterFault_pc (f : Fault) (s : State) :
    (enterFault f s).pc = s.pc := rfl
@[simp] theorem enterFault_stack (f : Fault) (s : State) :
    (enterFault f s).stack = s.stack := rfl
@[simp] theorem enterFault_sp (f : Fault) (s : State) :
    (enterFault f s).sp = s.sp := rfl
@[simp] theorem enterFault_dt (f : Fault) (s : State) :
    (enterFault f s).dt = s.dt := rfl
@[simp] theorem enterFault_st (f : Fault) (s : State) :
    (enterFault f s).st = s.st := rfl
@[simp] theorem enterFault_key (f : Fault) (s : State) :
    (enterFault f s).key = s.key := rfl
@[simp] theorem enterFault_fb (f : Fault) (s : State) :
    (enterFault f s).fb = s.fb := rfl
@[simp] theorem enterFault_fault (f : Fault) (s : State) :
    (enterFault f s).fault = some f := rfl
@[simp] theorem enterFault_reports (f : Fault) (s : State) :
    (enterFault f s).reports = s.reports := rfl
@[simp] theorem enterFault_draws (f : Fault) (s : State) :
    (enterFault f s).draws = s.draws := rfl
@[simp] theorem enterFault_getV (f : Fault) (s : State) (y : Nibble) :
    (enterFault f s).getV y = s.getV y := rfl

/-! ### report -/

@[simp] theorem report_mem (op : Word) (s : State) :
    (report op s).mem = s.mem := rfl
@[simp] theorem report_v (op : Word) (s : State) :
    (report op s).v = s.v := rfl
@[simp] theorem report_i (op : Word) (s : State) :
    (report op s).i = s.i := rfl
@[simp] theorem report_pc (op : Word) (s : State) :
    (report op s).pc = s.pc := rfl
@[simp] theorem report_stack (op : Word) (s : State) :
    (report op s).stack = s.stack := rfl
@[simp] theorem report_sp (op : Word) (s : State) :
    (report op s).sp = s.sp := rfl
@[simp] theorem report_dt (op : Word) (s : State) :
    (report op s).dt = s.dt := rfl
@[simp] theorem report_st (op : Word) (s : State) :
    (report op s).st = s.st := rfl
@[simp] theorem report_key (op : Word) (s : State) :
    (report op s).key = s.key := rfl
@[simp] theorem report_fb (op : Word) (s : State) :
    (report op s).fb = s.fb := rfl
@[simp] theorem report_fault (op : Word) (s : State) :
    (report op s).fault = s.fault := rfl
@[simp] theorem report_reports (op : Word) (s : State) :
    (report op s).reports = s.reports ++ [op] := rfl
@[simp] theorem report_draws (op : Word) (s : State) :
    (report op s).draws = s.draws := rfl
@[simp] theorem report_getV (op : Word) (s : State) (y : Nibble) :
    (report op s).getV y = s.getV y := rfl

/-! ### drawRandom -/

@[simp] theorem drawRandom_mem (s : State) :
    (drawRandom s).2.mem = s.mem := rfl
@[simp] theorem drawRandom_v (s : State) :
    (drawRandom s).2.v = s.v := rfl
@[simp] theorem drawRandom_i (s : State) :
    (drawRandom s).2.i = s.i := rfl
@[simp] theorem drawRandom_pc (s : State) :
    (drawRandom s).2.pc = s.pc := rfl
@[simp] theorem drawRandom_stack (s : State) :
    (drawRandom s).2.stack = s.stack := rfl
@[simp] theorem drawRandom_sp (s : State) :
    (drawRandom s).2.sp = s.sp := rfl
@[simp] theorem drawRandom_dt (s : State) :
    (drawRandom s).2.dt = s.dt := rfl
@[simp] theorem drawRandom_st (s : State) :
    (drawRandom s).2.st = s.st := rfl
@[simp] theorem drawRandom_key (s : State) :
    (drawRandom s).2.key = s.key := rfl
@[simp] theorem drawRandom_fb (s : State) :
    (drawRandom s).2.fb = s.fb := rfl
@[simp] theorem drawRandom_fault (s : State) :
    (drawRandom s).2.fault = s.fault := rfl
@[simp] theorem drawRandom_reports (s : State) :
    (drawRandom s).2.reports = s.reports := rfl
@[simp] theorem drawRandom_draws (s : State) :
    (drawRandom s).2.draws = s.draws + 1 := rfl
@[simp] theorem drawRandom_getV (s : State) (y : Nibble) :
    (drawRandom s).2.getV y = s.getV y := rfl

/-! ### advancePc -/

@[simp] theorem advancePc_mem (s : State) :
    (advancePc s).mem = s.mem := rfl
@[simp] theorem advancePc_v (s : State) :
    (advancePc s).v = s.v := rfl
@[simp] theorem advancePc_i (s : State) :
    (advancePc s).i = s.i := rfl
@[simp] theorem advancePc_pc (s : State) :
    (advancePc s).pc = s.pc + 2 := rfl
@[simp] theorem advancePc_stack (s : State) :
    (advancePc s).stack = s.stack := rfl
@[simp] theorem advancePc_sp (s : State) :
    (advancePc s).sp = s.sp := rfl
@[simp] theorem advancePc_dt (s : State) :
    (advancePc s).dt = s.dt := rfl
@[simp] theorem advancePc_st (s : State) :
    (advancePc s).st = s.st := rfl
@[simp] theorem advancePc_key (s : State) :
    (advancePc s).key = s.key := rfl
@[simp] theorem advancePc_fb (s : State) :
    (advancePc s).fb = s.fb := rfl
@[simp] theorem advancePc_fault (s : State) :
    (advancePc s).fault = s.fault := rfl
@[simp] theorem advancePc_reports (s : State) :
    (advancePc s).reports = s.reports := rfl
@[simp] theorem advancePc_draws (s : State) :
    (advancePc s).draws = s.draws := rfl
@[simp] theorem advancePc_getV (s : State) (y : Nibble) :
    (advancePc s).getV y = s.getV y := rfl

/-! ### skip -/

@[simp] theorem skip_mem (s : State) :
    (skip s).mem = s.mem := rfl
@[simp] theorem skip_v (s : State) :
    (skip s).v = s.v := rfl
@[simp] theorem skip_i (s : State) :
    (skip s).i = s.i := rfl
@[simp] theorem skip_pc (s : State) :
    (skip s).pc = s.pc + 2 := rfl
@[simp] theorem skip_stack (s : State) :
    (skip s).stack = s.stack := rfl
@[simp] theorem skip_sp (s : State) :
    (skip s).sp = s.sp := rfl
@[simp] theorem skip_dt (s : State) :
    (skip s).dt = s.dt := rfl
@[simp] theorem skip_st (s : State) :
    (skip s).st = s.st := rfl
@[simp] theorem skip_key (s : State) :
    (skip s).key = s.key := rfl
@[simp] theorem skip_fb (s : State) :
    (skip s).fb = s.fb := rfl
@[simp] theorem skip_fault (s : State) :
    (skip s).fault = s.fault := rfl
@[simp] theorem skip_reports (s : State) :
    (skip s).reports = s.reports := rfl
@[simp] theorem skip_draws (s : State) :
    (skip s).draws = s.draws := rfl
@[simp] theorem skip_getV (s : State) (y : Nibble) :
    (skip s).getV y = s.getV y := rfl

/-! ### rewind -/

@[simp] theorem rewind_mem (s : State) :
    (rewind s).mem = s.mem := rfl
@[simp] theorem rewind_v (s : State) :
    (rewind s).v = s.v := rfl
@[simp] theorem rewind_i (s : State) :
    (rewind s).i = s.i := rfl
@[simp] theorem rewind_pc (s : State) :
    (rewind s).pc = s.pc - 2 := rfl
@[simp] theorem rewind_stack (s : State) :
    (rewind s).stack = s.stack := rfl
@[simp] theorem rewind_sp (s : State) :
    (rewind s).sp = s.sp := rfl
@[simp] theorem rewind_dt (s : State) :
    (rewind s).dt = s.dt := rfl
@[simp] theorem rewind_st (s : State) :
    (rewind s).st = s.st := rfl
@[simp] theorem rewind_key (s : State) :
    (rewind s).key = s.key := rfl
@[simp] theorem rewind_fb (s : State) :
    (rewind s).fb = s.fb := rfl
@[simp] theorem rewind_fault (s : State) :
    (rewind s).fault = s.fault := rfl
@[simp] theorem rewind_reports (s : State) :
    (rewind s).reports = s.reports := rfl
@[simp] theorem rewind_draws (s : State) :
    (rewind s).draws = s.draws := rfl
@[simp] theorem rewind_getV (s : State) (y : Nibble) :
    (rewind s).getV y = s.getV y := rfl

/-! ### raise -/

@[simp] theorem raise_mem (f : Fault) (s : State) :
    (raise f s).mem = s.mem := rfl
@[simp] theorem raise_v (f : Fault) (s : State) :
    (raise f s).v = s.v := rfl
@[simp] theorem raise_i (f : Fault) (s : State) :
    (raise f s).i = s.i := rfl
@[simp] theorem raise_pc (f : Fault) (s : State) :
    (raise f s).pc = s.pc - 2 := rfl
@[simp] theorem raise_stack (f : Fault) (s : State) :
    (raise f s).stack = s.stack := rfl
@[simp] theorem raise_sp (f : Fault) (s : State) :
    (raise f s).sp = s.sp := rfl
@[simp] theorem raise_dt (f : Fault) (s : State) :
    (raise f s).dt = s.dt := rfl
@[simp] theorem raise_st (f : Fault) (s : State) :
    (raise f s).st = s.st := rfl
@[simp] theorem raise_key (f : Fault) (s : State) :
    (raise f s).key = s.key := rfl
@[simp] theorem raise_fb (f : Fault) (s : State) :
    (raise f s).fb = s.fb := rfl
@[simp] theorem raise_fault (f : Fault) (s : State) :
    (raise f s).fault = some f := rfl
@[simp] theorem raise_reports (f : Fault) (s : State) :
    (raise f s).reports = s.reports := rfl
@[simp] theorem raise_draws (f : Fault) (s : State) :
    (raise f s).draws = s.draws := rfl
@[simp] theorem raise_getV (f : Fault) (s : State) (y : Nibble) :
    (raise f s).getV y = s.getV y := rfl

/-! ### Register reads after register writes -/

/-- A register write changes the register named and no other. -/
@[simp] theorem State.setV_getV (s : State) (x y : Nibble) (b : Byte) :
    (s.setV x b).getV y = if y = x then b else s.getV y := by
  simp only [State.getV, State.setV, Vector.getElem_set]
  by_cases h : y = x
  · simp [h]
  · have : x.toNat ≠ y.toNat := fun e => h (BitVec.eq_of_toNat_eq e.symm)
    simp [h, this]

@[simp] theorem State.setRegs_getV (s : State) (w : Vector Byte 16) (y : Nibble) :
    (s.setRegs w).getV y = w[y.toNat]'y.isLt := rfl

/-- The random byte drawn is the free value the draw counter names. -/
@[simp] theorem drawRandom_byte (s : State) : (drawRandom s).1 = Config.randomByte s.draws := rfl

/-- skipIf is one of its two ends. -/
theorem skipIf_eq (c : Bool) (s : State) : skipIf c s = if c then s.setPc (s.pc + 2) else s := by
  cases c <;> rfl

/-- Two states with the same fields are the same state. -/
theorem State.ext_fields {s t : State} (h1 : s.mem = t.mem) (h2 : s.v = t.v) (h3 : s.i = t.i) (h4 : s.pc = t.pc)
    (h5 : s.stack = t.stack) (h6 : s.sp = t.sp) (h7 : s.dt = t.dt) (h8 : s.st = t.st) (h9 : s.key = t.key) (h10 : s.fb = t.fb)
    (h11 : s.fault = t.fault) (h12 : s.reports = t.reports) (h13 : s.draws = t.draws) : s = t := by
  cases s; cases t; simp_all

end Sys2Proof.Machine
end

