-- ==== Sys2Proof/Laws/Ops.lean ====
section
/-! SUPPORT. One lemma per shared operation that says once everything it can do: the stack, taking a fault, the fetch, the range
checks, the key index, the lowest key, flag routing, and the values moved between registers and memory. -/

namespace Sys2Proof.Machine

/-! ### Taking a fault -/

/-- A fault taken inside an instruction leaves everything but PC, back at the instruction, and FAULT. -/
theorem raise_eq (f : Fault) (s : State) : raise f s = { s with pc := s.pc - 2, fault := some f } := rfl

/-- The fetch's advance and its discard cancel: the faulted state is the step's start with FAULT written. -/
theorem raise_advancePc (f : Fault) (s : State) : raise f (advancePc s) = { s with fault := some f } := by
  have h : s.pc + 2 - 2 = s.pc := by simp
  simp only [raise, enterFault, pcInsn, advancePc, State.setPc, h]

theorem pcInsn_advancePc (s : State) : pcInsn (advancePc s) = s.pc := by simp [pcInsn]

theorem rewind_advancePc (s : State) : rewind (advancePc s) = s := by
  have h : s.pc + 2 - 2 = s.pc := by simp
  simp only [rewind, advancePc, State.setPc, h]

@[simp] theorem finish_ok (s t : State) : finish s (.ok t) = .next t := rfl
@[simp] theorem finish_error (s : State) (f : Fault) : finish s (.error f) = .next (raise f s) := rfl

/-! ### Return stack -/

/-- A push writes the slot at SP and increments SP, or overflows at SP = 16. -/
theorem pushReturn_cases (a : Word) (s : State) :
    (∃ h : s.sp.val < 16, pushReturn a s = .ok (s.setStack (s.stack.set s.sp.val a h) ⟨s.sp.val + 1, Nat.succ_lt_succ h⟩)) ∨
    (s.sp.val = 16 ∧ pushReturn a s = .error (.stackOverflow (pcInsn s))) := by
  by_cases h : s.sp.val < 16
  · exact .inl ⟨h, dif_pos h⟩
  · exact .inr ⟨by omega, dif_neg h⟩

/-- A pop reads the slot below SP and decrements SP, or underflows at SP = 0. -/
theorem popReturn_cases (s : State) :
    (∃ (_ : 0 < s.sp.val) (h : s.sp.val - 1 < 16) (h' : s.sp.val - 1 < 17),
      popReturn s = .ok (s.stack[s.sp.val - 1], s.setStack s.stack ⟨s.sp.val - 1, h'⟩)) ∨
    (s.sp.val = 0 ∧ popReturn s = .error (.stackUnderflow (pcInsn s))) := by
  by_cases h : 0 < s.sp.val
  · exact .inl ⟨h, by omega, by omega, dif_pos h⟩
  · exact .inr ⟨by omega, dif_neg h⟩

/-! ### Fetch -/

/-- The fetch gives the decoded word at PC, or `FetchOutOfBounds` from 0x0FFF on. -/
theorem fetch_cases (s : State) :
    (s.pc.toNat + 1 ≤ 0xFFF ∧ fetch s = .ok (decodeWord (fetch16 s.mem s.pc.toNat))) ∨
    (0xFFF < s.pc.toNat + 1 ∧ fetch s = .error (.fetchOutOfBounds s.pc)) := by
  by_cases h : 0xFFF < s.pc.toNat + 1
  · exact .inr ⟨h, if_pos h⟩
  · exact .inl ⟨by omega, if_neg h⟩

/-! ### Range checks -/

/-- A read check passes where the range lies in memory (an empty range always does), or gives `max(I, 0x1000)`. -/
theorem checkRead_cases (i : Word) (n : Nat) :
    ((n = 0 ∨ i.toNat + n ≤ 4096) ∧ checkRead i n = .ok ()) ∨
    (n ≠ 0 ∧ 4096 < i.toNat + n ∧ checkRead i n = .error (.memoryOutOfBounds (max i.toNat 4096))) := by
  by_cases h : n ≠ 0 ∧ 4096 < i.toNat + n
  · exact .inr ⟨h.1, h.2, if_pos h⟩
  · exact .inl ⟨by omega, if_neg h⟩

/-- A write check of a non-empty range: inside memory and above the font table, or the fault of the first check that fails. -/
theorem checkWrite_cases (i : Word) {n : Nat} (hn : n ≠ 0) :
    (80 ≤ i.toNat ∧ i.toNat + n ≤ 4096 ∧ checkWrite i n = .ok ()) ∨
    (4096 < i.toNat + n ∧ checkWrite i n = .error (.memoryOutOfBounds (max i.toNat 4096))) ∨
    (i.toNat < 80 ∧ i.toNat + n ≤ 4096 ∧ checkWrite i n = .error (.fontWriteViolation i.toNat)) := by
  rcases checkRead_cases i n with ⟨h, e⟩ | ⟨_, h, e⟩
  · by_cases hf : i.toNat < 80
    · refine .inr (.inr ⟨hf, by omega, ?_⟩)
      simp only [checkWrite, e]
      exact if_pos ⟨hn, by simpa using hf⟩
    · refine .inl ⟨by omega, by omega, ?_⟩
      simp only [checkWrite, e]
      exact if_neg fun h => hf (by simpa using h.2)
  · exact .inr (.inl ⟨h, by simp only [checkWrite, e]⟩)

/-! ### Keys -/

/-- A key index is the register's whole value, below 16, or out of range. -/
theorem keyIndex_cases (k : Byte) :
    (∃ h : k.toNat < 16, keyIndex k = .ok ⟨k.toNat, h⟩) ∨ (16 ≤ k.toNat ∧ keyIndex k = .error (.keyIndexOutOfRange k)) := by
  by_cases h : k.toNat < 16
  · exact .inl ⟨h, dif_pos h⟩
  · exact .inr ⟨by omega, dif_neg h⟩

/-- Either no key is pressed, or the key found is pressed and none below it is. -/
theorem lowestKey_cases (key : Vector Bool 16) :
    (lowestKey key = none ∧ ∀ k : Fin 16, key[k.val] = false) ∨
    (∃ k : Fin 16, lowestKey key = some k ∧ key[k.val] = true ∧ ∀ j : Fin 16, j < k → key[j.val] = false) := by
  cases h : lowestKey key with
  | none =>
    refine .inl ⟨rfl, fun k => ?_⟩
    have := List.find?_eq_none.mp h k (List.mem_finRange k)
    simpa using this
  | some k =>
    refine .inr ⟨k, rfl, ?_, fun j hj => ?_⟩
    · simpa using List.find?_some h
    · obtain ⟨_, i, hi, e, hlt⟩ := List.find?_eq_some_iff_getElem.mp h
      have hik : i = k.val := by
        have := congrArg Fin.val e
        simpa using this
      have := hlt j.val (by rw [hik]; exact hj)
      simpa using this

/-! ### Flags -/

/-- Flag routing: VF holds the flag, X (if it is not F) the result, every other register its old value. -/
@[simp] theorem writeResultThenFlag_getV (x y : Nibble) (result flag : Byte) (s : State) :
    (writeResultThenFlag x result flag s).getV y = if y = vf then flag else if y = x then result else s.getV y := by
  simp [writeResultThenFlag]

theorem flagByte_eq (c : Bool) : flagByte c = if c then 1 else 0 := by cases c <;> rfl

theorem carryFlag_eq (a b : Byte) : carryFlag a b = if 255 < a.toNat + b.toNat then 1 else 0 := by
  simp [carryFlag, flagByte_eq]

theorem noBorrowFlag_eq (a b : Byte) : noBorrowFlag a b = if b.toNat ≤ a.toNat then 1 else 0 := by
  simp [noBorrowFlag, flagByte_eq]

theorem shiftFlag_eq (b : Byte) : shiftFlag b = if b.toNat % 2 = 1 then 1 else 0 := by
  have : ∀ b : Byte, shiftFlag b = if b.toNat % 2 = 1 then 1 else 0 := by decide
  exact this b

/-! ### Values moved -/

@[simp] theorem length_regsUpTo (s : State) (x : Nibble) : (regsUpTo s x).length = x.toNat + 1 := by
  have := x.isLt
  simp [regsUpTo]; omega

theorem getElem_regsUpTo (s : State) (x y : Nibble) (h : y.toNat < (regsUpTo s x).length) :
    (regsUpTo s x)[y.toNat] = s.getV y := by
  simp [regsUpTo, State.getV]

@[simp] theorem length_bcdDigits (b : Byte) : (bcdDigits b).length = 3 := rfl

/-- load-regs takes V[0] to V[X] from memory and leaves the registers above X alone. -/
theorem regsFromMemory_getV (s : State) (x y : Nibble) :
    (s.setRegs (regsFromMemory s x)).getV y =
      if y.toNat ≤ x.toNat then s.mem.read (s.i.toNat + y.toNat) else s.getV y := by
  simp [regsFromMemory, State.getV]

@[simp] theorem length_spriteRows (s : State) (n : Nibble) : (spriteRows s n).length = n.toNat := by simp [spriteRows]

end Sys2Proof.Machine
end

