-- ==== Sys2Proof/Laws/Frame.lean ====
section
/-! SUPPORT. The frame of each update of the state, and how frames widen and compose. -/

namespace Sys2Proof.Machine

theorem Part.same_refl (s : State) (p : Part) : p.same s s := by cases p <;> rfl

theorem Part.same_trans {s t u : State} {p : Part} (h : p.same s t) (h' : p.same t u) : p.same s u := by
  cases p <;> exact Eq.trans h' h

theorem unchangedBut_refl (w : Part → Prop) (s : State) : unchangedBut w s s := fun p _ => p.same_refl s

/-- A frame holds with more places allowed to change. -/
theorem unchangedBut.mono {w w' : Part → Prop} {s t : State} (h : unchangedBut w s t) (sub : ∀ p, w p → w' p) :
    unchangedBut w' s t := fun p hp => h p fun hw => hp (sub p hw)

/-- Two updates one after the other change what either may change. -/
theorem unchangedBut.trans {w : Part → Prop} {s t u : State} (h : unchangedBut w s t) (h' : unchangedBut w t u) :
    unchangedBut w s u := fun p hp => Part.same_trans (h p hp) (h' p hp)

theorem setV_frame (s : State) (x : Nibble) (b : Byte) : unchangedBut (fun p => p = .reg x) s (s.setV x b) := by
  intro p hp
  cases p with
  | reg y =>
    have : y ≠ x := fun e => hp (by rw [e])
    simp [Part.same, this]
  | _ => rfl

theorem setI_frame (s : State) (w : Word) : unchangedBut (fun p => p = .i) s (s.setI w) := by
  intro p hp
  cases p with
  | i => exact absurd rfl hp
  | _ => rfl

theorem setPc_frame (s : State) (w : Word) : unchangedBut (fun p => p = .pc) s (s.setPc w) := by
  intro p hp
  cases p with
  | pc => exact absurd rfl hp
  | _ => rfl

theorem setDt_frame (s : State) (b : Byte) : unchangedBut (fun p => p = .dt) s (s.setDt b) := by
  intro p hp
  cases p with
  | dt => exact absurd rfl hp
  | _ => rfl

theorem setSt_frame (s : State) (b : Byte) : unchangedBut (fun p => p = .st) s (s.setSt b) := by
  intro p hp
  cases p with
  | st => exact absurd rfl hp
  | _ => rfl

theorem setFb_frame (s : State) (fb : FrameBuffer) : unchangedBut (fun p => ∃ c r, p = .pixel c r) s (s.setFb fb) := by
  intro p hp
  cases p with
  | pixel c r => exact absurd ⟨c, r, rfl⟩ hp
  | _ => rfl

theorem report_frame (op : Word) (s : State) : unchangedBut (fun p => p = .reports) s (report op s) := by
  intro p hp
  cases p with
  | reports => exact absurd rfl hp
  | _ => rfl

theorem drawRandom_frame (s : State) : unchangedBut (fun p => p = .draws) s (drawRandom s).2 := by
  intro p hp
  cases p with
  | draws => exact absurd rfl hp
  | _ => rfl

theorem setStack_frame (s : State) (w : Vector Word 16) (n : Fin 17) :
    unchangedBut (fun p => p = .sp ∨ ∃ k, p = .stackSlot k) s (s.setStack w n) := by
  intro p hp
  cases p with
  | sp => exact absurd (.inl rfl) hp
  | stackSlot k => exact absurd (.inr ⟨k, rfl⟩) hp
  | _ => rfl

theorem setRegs_frame (s : State) (w : Vector Byte 16) : unchangedBut (fun p => ∃ k, p = .reg k) s (s.setRegs w) := by
  intro p hp
  cases p with
  | reg k => exact absurd ⟨k, rfl⟩ hp
  | _ => rfl

/-- load-regs changes V[0] to V[X] and nothing else. -/
theorem regsFromMemory_frame (s : State) (x : Nibble) :
    unchangedBut (fun p => ∃ k : Nibble, k.toNat ≤ x.toNat ∧ p = .reg k) s (s.setRegs (regsFromMemory s x)) := by
  intro p hp
  by_cases hr : ∃ k, p = .reg k
  · obtain ⟨k, rfl⟩ := hr
    have hk : ¬ k.toNat ≤ x.toNat := fun h => hp ⟨k, h, rfl⟩
    show (s.setRegs (regsFromMemory s x)).getV k = s.getV k
    rw [regsFromMemory_getV, if_neg hk]
  · exact setRegs_frame s _ p hr

theorem setKey_frame (s : State) (k : Fin 16) (b : Bool) : unchangedBut (fun p => p = .key k) s (s.setKey k b) := by
  intro p hp
  cases p with
  | key j =>
    have : k.val ≠ j.val := fun e => hp (congrArg Part.key (Fin.ext e.symm))
    simp [Part.same, this]
  | _ => rfl

/-- Exactly one slot of the stack written, and SP moved. -/
theorem setStack_slot_frame (s : State) (k : Fin 16) (a : Word) (n : Fin 17) :
    unchangedBut (fun p => p = .sp ∨ p = .stackSlot k) s (s.setStack (s.stack.set k.val a k.isLt) n) := by
  intro p hp
  cases p with
  | sp => exact absurd (.inl rfl) hp
  | stackSlot j =>
    have : k.val ≠ j.val := fun e => hp (.inr (congrArg Part.stackSlot (Fin.ext e.symm)))
    simp [Part.same, this]
  | _ => rfl

/-- A range write changes bytes inside its range and nothing else. -/
theorem writeRange_frame (s : State) (a : Nat) (bs : List Byte) :
    unchangedBut (fun p => ∃ k < bs.length, p = .memByte (a + k)) s (s.setMem (s.mem.writeRange a bs)) := by
  intro p hp
  cases p with
  | memByte b =>
    refine Memory.read_writeRange_other bs s.mem ?_
    by_contra h
    exact hp ⟨b - a, by omega, by congr 1; omega⟩
  | _ => rfl

/-- A fault taken inside an instruction changes PC and FAULT and nothing else. -/
theorem raise_frame (f : Fault) (s : State) : unchangedBut (fun p => p = .pc ∨ p = .fault) s (raise f s) := by
  intro p hp
  cases p with
  | pc => exact absurd (.inl rfl) hp
  | fault => exact absurd (.inr rfl) hp
  | _ => rfl

end Sys2Proof.Machine
end

