-- ==== Sys2Proof/Laws/PerInstr.lean ====
section
/-! SUPPORT. Statements made per instruction. `RowPattern`: the word of an instruction belongs to the opcode-map row of its own
mnemonic (30_encoding.md R95, R99), for every value of its operands; `unimplemented` has no row. -/

namespace Sys2Proof.Laws.RowPattern

/-- The instruction's word matches every opcode-map row that carries its mnemonic. -/
def Statement (i : Instr) : Prop := ∀ r ∈ opcodeRows, r.mnemonic = mnemonicOf i → rowMatches r (encode i) = true

theorem of_row {i : Instr} {mask pattern : Word} (rest : ∀ r ∈ opcodeRows, r.mnemonic = mnemonicOf i → r.mask = mask ∧ r.pattern = pattern)
    (h : encode i &&& mask = pattern) : Statement i := by
  intro r hr hm
  obtain ⟨rfl, rfl⟩ := rest r hr hm
  simpa [rowMatches] using h

/-- A mask of a nibble of ones keeps the nibble. -/
theorem nibble_and_ones (c : Nibble) : c &&& 0xF#4 = c := BitVec.and_allOnes (x := c)

theorem byte_and_ones (b : Byte) : b &&& 0xFF#8 = b := BitVec.and_allOnes (x := b)

theorem mask_formA (c : Nibble) (a : Addr12) : formA c a &&& 0xF000#16 = c ++ 0#12 := by
  show (c ++ a) &&& (0xF#4 ++ 0#12) = c ++ 0#12
  rw [BitVec.and_append, nibble_and_ones, BitVec.and_zero]

theorem mask_formXI (c x : Nibble) (nn : Byte) : formXI c x nn &&& 0xF000#16 = c ++ 0#4 ++ 0#8 := by
  show (c ++ x ++ nn) &&& (0xF#4 ++ 0#4 ++ 0#8) = c ++ 0#4 ++ 0#8
  rw [BitVec.and_append, BitVec.and_append, nibble_and_ones, BitVec.and_zero, BitVec.and_zero]

theorem mask_formXF (c x : Nibble) (nn : Byte) : formXI c x nn &&& 0xF0FF#16 = c ++ 0#4 ++ nn := by
  show (c ++ x ++ nn) &&& (0xF#4 ++ 0#4 ++ 0xFF#8) = c ++ 0#4 ++ nn
  rw [BitVec.and_append, BitVec.and_append, nibble_and_ones, byte_and_ones, BitVec.and_zero]

theorem mask_formXY (c x y n : Nibble) : formXYN c x y n &&& 0xF00F#16 = c ++ 0#4 ++ 0#4 ++ n := by
  show (c ++ x ++ y ++ n) &&& (0xF#4 ++ 0#4 ++ 0#4 ++ 0xF#4) = c ++ 0#4 ++ 0#4 ++ n
  rw [BitVec.and_append, BitVec.and_append, BitVec.and_append, nibble_and_ones, nibble_and_ones, BitVec.and_zero, BitVec.and_zero]

theorem mask_formXYN (c x y n : Nibble) : formXYN c x y n &&& 0xF000#16 = c ++ 0#4 ++ 0#4 ++ 0#4 := by
  show (c ++ x ++ y ++ n) &&& (0xF#4 ++ 0#4 ++ 0#4 ++ 0#4) = c ++ 0#4 ++ 0#4 ++ 0#4
  rw [BitVec.and_append, BitVec.and_append, BitVec.and_append, nibble_and_ones, BitVec.and_zero, BitVec.and_zero, BitVec.and_zero]

theorem clearDisplay : Statement .clearDisplay :=
  of_row (mask := 0xFFFF#16) (pattern := 0x00E0#16) (by simp only [mnemonicOf]; decide) (by decide)

theorem ret : Statement .ret :=
  of_row (mask := 0xFFFF#16) (pattern := 0x00EE#16) (by simp only [mnemonicOf]; decide) (by decide)

theorem jump (nnn : Addr12) : Statement (.jump nnn) :=
  of_row (mask := 0xF000#16) (pattern := 0x1000#16) (by simp only [mnemonicOf]; decide) (mask_formA _ _)

theorem call (nnn : Addr12) : Statement (.call nnn) :=
  of_row (mask := 0xF000#16) (pattern := 0x2000#16) (by simp only [mnemonicOf]; decide) (mask_formA _ _)

theorem skipEqImm (x : Nibble) (nn : Byte) : Statement (.skipEqImm x nn) :=
  of_row (mask := 0xF000#16) (pattern := 0x3000#16) (by simp only [mnemonicOf]; decide) (mask_formXI _ _ _)

theorem skipNeImm (x : Nibble) (nn : Byte) : Statement (.skipNeImm x nn) :=
  of_row (mask := 0xF000#16) (pattern := 0x4000#16) (by simp only [mnemonicOf]; decide) (mask_formXI _ _ _)

theorem skipEqReg (x y : Nibble) : Statement (.skipEqReg x y) :=
  of_row (mask := 0xF00F#16) (pattern := 0x5000#16) (by simp only [mnemonicOf]; decide) (mask_formXY _ _ _ _)

theorem loadImm (x : Nibble) (nn : Byte) : Statement (.loadImm x nn) :=
  of_row (mask := 0xF000#16) (pattern := 0x6000#16) (by simp only [mnemonicOf]; decide) (mask_formXI _ _ _)

theorem addImm (x : Nibble) (nn : Byte) : Statement (.addImm x nn) :=
  of_row (mask := 0xF000#16) (pattern := 0x7000#16) (by simp only [mnemonicOf]; decide) (mask_formXI _ _ _)

theorem loadReg (x y : Nibble) : Statement (.loadReg x y) :=
  of_row (mask := 0xF00F#16) (pattern := 0x8000#16) (by simp only [mnemonicOf]; decide) (mask_formXY _ _ _ _)

theorem orReg (x y : Nibble) : Statement (.orReg x y) :=
  of_row (mask := 0xF00F#16) (pattern := 0x8001#16) (by simp only [mnemonicOf]; decide) (mask_formXY _ _ _ _)

theorem andReg (x y : Nibble) : Statement (.andReg x y) :=
  of_row (mask := 0xF00F#16) (pattern := 0x8002#16) (by simp only [mnemonicOf]; decide) (mask_formXY _ _ _ _)

theorem xorReg (x y : Nibble) : Statement (.xorReg x y) :=
  of_row (mask := 0xF00F#16) (pattern := 0x8003#16) (by simp only [mnemonicOf]; decide) (mask_formXY _ _ _ _)

theorem addReg (x y : Nibble) : Statement (.addReg x y) :=
  of_row (mask := 0xF00F#16) (pattern := 0x8004#16) (by simp only [mnemonicOf]; decide) (mask_formXY _ _ _ _)

theorem subReg (x y : Nibble) : Statement (.subReg x y) :=
  of_row (mask := 0xF00F#16) (pattern := 0x8005#16) (by simp only [mnemonicOf]; decide) (mask_formXY _ _ _ _)

theorem shiftRight (x y : Nibble) : Statement (.shiftRight x y) :=
  of_row (mask := 0xF00F#16) (pattern := 0x8006#16) (by simp only [mnemonicOf]; decide) (mask_formXY _ _ _ _)

theorem subRegYx (x y : Nibble) : Statement (.subRegYx x y) :=
  of_row (mask := 0xF00F#16) (pattern := 0x8007#16) (by simp only [mnemonicOf]; decide) (mask_formXY _ _ _ _)

theorem shiftLeft (x y : Nibble) : Statement (.shiftLeft x y) :=
  of_row (mask := 0xF00F#16) (pattern := 0x800E#16) (by simp only [mnemonicOf]; decide) (mask_formXY _ _ _ _)

theorem skipNeReg (x y : Nibble) : Statement (.skipNeReg x y) :=
  of_row (mask := 0xF00F#16) (pattern := 0x9000#16) (by simp only [mnemonicOf]; decide) (mask_formXY _ _ _ _)

theorem loadI (nnn : Addr12) : Statement (.loadI nnn) :=
  of_row (mask := 0xF000#16) (pattern := 0xA000#16) (by simp only [mnemonicOf]; decide) (mask_formA _ _)

theorem randAnd (x : Nibble) (nn : Byte) : Statement (.randAnd x nn) :=
  of_row (mask := 0xF000#16) (pattern := 0xC000#16) (by simp only [mnemonicOf]; decide) (mask_formXI _ _ _)

theorem draw (x y n : Nibble) : Statement (.draw x y n) :=
  of_row (mask := 0xF000#16) (pattern := 0xD000#16) (by simp only [mnemonicOf]; decide) (mask_formXYN _ _ _ _)

theorem skipKeyPressed (x : Nibble) : Statement (.skipKeyPressed x) :=
  of_row (mask := 0xF0FF#16) (pattern := 0xE09E#16) (by simp only [mnemonicOf]; decide) (mask_formXF _ _ _)

theorem skipKeyNotPressed (x : Nibble) : Statement (.skipKeyNotPressed x) :=
  of_row (mask := 0xF0FF#16) (pattern := 0xE0A1#16) (by simp only [mnemonicOf]; decide) (mask_formXF _ _ _)

theorem waitKey (x : Nibble) : Statement (.waitKey x) :=
  of_row (mask := 0xF0FF#16) (pattern := 0xF00A#16) (by simp only [mnemonicOf]; decide) (mask_formXF _ _ _)

theorem loadDelay (x : Nibble) : Statement (.loadDelay x) :=
  of_row (mask := 0xF0FF#16) (pattern := 0xF007#16) (by simp only [mnemonicOf]; decide) (mask_formXF _ _ _)

theorem loadSound (x : Nibble) : Statement (.loadSound x) :=
  of_row (mask := 0xF0FF#16) (pattern := 0xF018#16) (by simp only [mnemonicOf]; decide) (mask_formXF _ _ _)

theorem setDelay (x : Nibble) : Statement (.setDelay x) :=
  of_row (mask := 0xF0FF#16) (pattern := 0xF015#16) (by simp only [mnemonicOf]; decide) (mask_formXF _ _ _)

theorem addI (x : Nibble) : Statement (.addI x) :=
  of_row (mask := 0xF0FF#16) (pattern := 0xF01E#16) (by simp only [mnemonicOf]; decide) (mask_formXF _ _ _)

theorem fontAddr (x : Nibble) : Statement (.fontAddr x) :=
  of_row (mask := 0xF0FF#16) (pattern := 0xF029#16) (by simp only [mnemonicOf]; decide) (mask_formXF _ _ _)

theorem bcd (x : Nibble) : Statement (.bcd x) :=
  of_row (mask := 0xF0FF#16) (pattern := 0xF033#16) (by simp only [mnemonicOf]; decide) (mask_formXF _ _ _)

theorem storeRegs (x : Nibble) : Statement (.storeRegs x) :=
  of_row (mask := 0xF0FF#16) (pattern := 0xF055#16) (by simp only [mnemonicOf]; decide) (mask_formXF _ _ _)

theorem loadRegs (x : Nibble) : Statement (.loadRegs x) :=
  of_row (mask := 0xF0FF#16) (pattern := 0xF065#16) (by simp only [mnemonicOf]; decide) (mask_formXF _ _ _)

theorem unimplemented (op : Word) : Statement (.unimplemented op) := by
  intro r hr hm
  exact absurd hm (by revert r; simp only [mnemonicOf]; decide)

end Sys2Proof.Laws.RowPattern
end

