-- ==== Sys2Proof/Laws/Run.lean ====
section
/-! SUPPORT. Runs: one step more at the front or at the end, a state that steps to itself, and what a step does where it can
fetch. -/

namespace Sys2Proof.Machine

/-- A run of one step more, where the first step answers a state. -/
theorem run_step (M : Host.Core) {s t : M.State} (h : M.step s = .next t) (k : Nat) : M.run (k + 1) s = M.run k t := by
  simp only [Host.Core.run, h]

/-- A run of one step more at its end. -/
theorem run_step_last (M : Host.Core) {t : M.State} (k : Nat) :
    ∀ {s : M.State}, M.run k s = .next t → M.run (k + 1) s = M.step t := by
  induction k with
  | zero =>
    intro s h
    cases h
    simp only [Host.Core.run]
    cases M.step t <;> rfl
  | succ k ih =>
    intro s h
    cases hs : M.step s with
    | next u => rw [run_step M hs] at h ⊢; exact ih h
    | fault f => simp [Host.Core.run, hs] at h
    | refused f => simp [Host.Core.run, hs] at h

/-- A state that steps to itself stays for any number of steps (70_reset_and_hazards.md R283). -/
theorem run_fixed {s : State} (h : step s = .next s) (k : Nat) : Host.Core.run core k s = .next s := by
  induction k with
  | zero => rfl
  | succ k ih => exact (run_step core h k).trans ih

/-- A step that can fetch runs the word at PC with PC advanced (30_encoding.md R97). -/
theorem step_of_fetch {s : State} (hf : s.fault = none) (hp : s.pc.toNat ≤ 0xFFE) :
    step s = exec (decodeWord (fetch16 s.mem s.pc.toNat)) (advancePc s) := by
  simp [step, hf, fetch, show ¬ 0xFFF < s.pc.toNat + 1 by omega]

end Sys2Proof.Machine
end

