-- ==== Sys2Proof/Laws/Sprite.lean ====
section
/-! SUPPORT. The pixels under the 1 bits of the rows a draw reads are the pixels its sprite covers, in the words of 43_display.md R192. -/

namespace Sys2Proof.Machine

theorem rowsCover_iff_spriteCovers (s : State) (x y n : Nibble) (c : Fin 64) (r : Fin 32) :
    rowsCover (s.getV x) (s.getV y) 0 (spriteRows s n) c r ↔ spriteCovers s x y n c r := by
  constructor
  · rintro ⟨k, hk, ⟨col, hc, hb, rfl⟩, rfl⟩
    exact ⟨k, by simpa using hk, col, hc, by simpa [spriteRows] using hb, rfl, by simp [wrapRow]⟩
  · rintro ⟨k, hk, col, hc, hb, h1, h2⟩
    refine ⟨k, by simpa using hk, ⟨col, hc, by simpa [spriteRows] using hb, ?_⟩, ?_⟩
    · ext; simpa [wrapColumn] using h1
    · ext; simpa [wrapRow] using h2

/-- A pixel the sprite covers flips. -/
theorem drawRows_pixel_covered {s : State} {x y n : Nibble} {c : Fin 64} {r : Fin 32} (h : spriteCovers s x y n c r) :
    (drawRows (s.getV x) (s.getV y) 0 (spriteRows s n) (s.fb, false)).1.pixel c r = !s.fb.pixel c r := by
  have hn := n.isLt
  rw [(drawRows_spec _ _ _ _ _ (by rw [length_spriteRows]; omega)).1]
  have := (rowsCover_iff_spriteCovers s x y n c r).mpr h
  simp only [this, decide_true, Bool.bne_true]

/-- A pixel the sprite does not cover stays. -/
theorem drawRows_pixel_other {s : State} {x y n : Nibble} {c : Fin 64} {r : Fin 32} (h : ¬ spriteCovers s x y n c r) :
    (drawRows (s.getV x) (s.getV y) 0 (spriteRows s n) (s.fb, false)).1.pixel c r = s.fb.pixel c r := by
  have hn := n.isLt
  rw [(drawRows_spec _ _ _ _ _ (by rw [length_spriteRows]; omega)).1]
  have : ¬ rowsCover (s.getV x) (s.getV y) 0 (spriteRows s n) c r := fun h' => h ((rowsCover_iff_spriteCovers s x y n c r).mp h')
  simp only [this, decide_false, Bool.bne_false]

/-- The collision flag says whether a covered pixel was on. -/
theorem drawRows_collision (s : State) (x y n : Nibble) :
    (drawRows (s.getV x) (s.getV y) 0 (spriteRows s n) (s.fb, false)).2 = true ↔
      ∃ c r, spriteCovers s x y n c r ∧ s.fb.pixel c r = true := by
  have hn := n.isLt
  rw [(drawRows_spec _ _ _ _ _ (by rw [length_spriteRows]; omega)).2]
  simp only [rowsCover_iff_spriteCovers, Bool.false_eq_true, false_or]

end Sys2Proof.Machine
end

