-- ==== Sys2Proof/Tests/Slice0.lean ====
section
/-! SUPPORT. The model's own tests. Expected results come from 95_test_vectors.md (each test names its vector) or are written out
from 30_encoding.md R92 and R95. Every run is one step on a small state. The last part shows, for each statement that has
hypotheses, values that meet them, at the edges of their ranges. -/

namespace Sys2Proof.Tests

open Sys2Proof.Machine

/-! ### Helpers -/

/-- The reset state with the word `w` as its next instruction. -/
def word (w : Nat) : State := State.reset.withFetchWord 16 w

/-- `s` with V0 and V1 set. -/
def with01 (a b : Byte) (s : State) : State := (s.setV 0x0#4 a).setV 0x1#4 b

/-- `s` with I set. -/
def withI (a : Word) (s : State) : State := s.setI a

/-- `s` with bytes in memory from `a` on. -/
def withMem (a : Nat) (bs : List Byte) (s : State) : State := s.setMem (s.mem.writeRange a bs)

/-- `s` with SP set and `a` in the slot below it, if there is one. -/
def withStack (n : Fin 17) (a : Word) (s : State) : State := s.setStack (Vector.replicate 16 a) n

/-- The outcome is a state that satisfies `p`. -/
def gives (p : State → Bool) : Result → Bool
  | .next t => p t
  | _ => false

/-- The outcome is the state `s` with only FAULT written (60_exceptions.md R246). -/
def faults (f : Fault) (s : State) : Result → Bool
  | .next t => t == { s with fault := some f }
  | _ => false

/-! ### Well-formedness: a word of a row is no `unimplemented` (45_unimplemented.md R232), one test per class of the check -/

theorem test_ill_formed_class0 : (Instr.unimplemented 0x00E0#16).wellFormed = false ∧
    (Instr.unimplemented 0x00EE#16).wellFormed = false ∧ (Instr.unimplemented 0x00E1#16).wellFormed = true := by decide

theorem test_ill_formed_class5 : (Instr.unimplemented 0x5AB0#16).wellFormed = false ∧
    (Instr.unimplemented 0x5AB1#16).wellFormed = true := by decide

theorem test_ill_formed_class8 : (Instr.unimplemented 0x8AB7#16).wellFormed = false ∧
    (Instr.unimplemented 0x8ABE#16).wellFormed = false ∧ (Instr.unimplemented 0x8AB8#16).wellFormed = true ∧
    (Instr.unimplemented 0x8ABF#16).wellFormed = true := by decide

theorem test_ill_formed_class9 : (Instr.unimplemented 0x9AB0#16).wellFormed = false ∧
    (Instr.unimplemented 0x9ABF#16).wellFormed = true := by decide

theorem test_ill_formed_classE : (Instr.unimplemented 0xEA9E#16).wellFormed = false ∧
    (Instr.unimplemented 0xEAA1#16).wellFormed = false ∧ (Instr.unimplemented 0xEA9F#16).wellFormed = true := by decide

theorem test_ill_formed_classF : (Instr.unimplemented 0xFA65#16).wellFormed = false ∧
    (Instr.unimplemented 0xFA0A#16).wellFormed = false ∧ (Instr.unimplemented 0xFAFF#16).wellFormed = true := by decide

theorem test_ill_formed_whole_class : (Instr.unimplemented 0x1234#16).wellFormed = false ∧
    (Instr.unimplemented 0xD000#16).wellFormed = false ∧ (Instr.unimplemented 0xB200#16).wellFormed = true := by decide

/-! ### Decoding: every constructor, from a word written out nibble by nibble (30_encoding.md R92, R95) -/

theorem test_decode_control_flow :
    decodeWord 0b0000_0000_1110_1110#16 = .ret ∧ decodeWord 0b0001_0010_0011_0100#16 = .jump 0x234#12 ∧
    decodeWord 0b0010_1111_1110_1101#16 = .call 0xFED#12 ∧ decodeWord 0b0011_1010_0000_0101#16 = .skipEqImm 0xA#4 0x05#8 ∧
    decodeWord 0b0100_0011_1000_0001#16 = .skipNeImm 0x3#4 0x81#8 ∧ decodeWord 0b0101_0001_0010_0000#16 = .skipEqReg 0x1#4 0x2#4 ∧
    decodeWord 0b1001_1110_0111_0000#16 = .skipNeReg 0xE#4 0x7#4 := by decide

theorem test_decode_alu :
    decodeWord 0b0110_1010_1111_1111#16 = .loadImm 0xA#4 0xFF#8 ∧ decodeWord 0b0111_0001_0000_0010#16 = .addImm 0x1#4 0x02#8 ∧
    decodeWord 0b1000_0001_0010_0000#16 = .loadReg 0x1#4 0x2#4 ∧ decodeWord 0b1000_0001_0010_0001#16 = .orReg 0x1#4 0x2#4 ∧
    decodeWord 0b1000_0001_0010_0010#16 = .andReg 0x1#4 0x2#4 ∧ decodeWord 0b1000_0001_0010_0011#16 = .xorReg 0x1#4 0x2#4 ∧
    decodeWord 0b1000_0001_0010_0100#16 = .addReg 0x1#4 0x2#4 ∧ decodeWord 0b1000_0001_0010_0101#16 = .subReg 0x1#4 0x2#4 ∧
    decodeWord 0b1000_0001_0010_0110#16 = .shiftRight 0x1#4 0x2#4 ∧ decodeWord 0b1000_0001_0010_0111#16 = .subRegYx 0x1#4 0x2#4 ∧
    decodeWord 0b1000_0001_0010_1110#16 = .shiftLeft 0x1#4 0x2#4 ∧ decodeWord 0b1100_0011_0101_1010#16 = .randAnd 0x3#4 0x5A#8 := by
  decide

theorem test_decode_index_memory :
    decodeWord 0b1010_0001_0010_0011#16 = .loadI 0x123#12 ∧ decodeWord 0b1111_0101_0001_1110#16 = .addI 0x5#4 ∧
    decodeWord 0b1111_0101_0010_1001#16 = .fontAddr 0x5#4 ∧ decodeWord 0b1111_0101_0011_0011#16 = .bcd 0x5#4 ∧
    decodeWord 0b1111_0101_0101_0101#16 = .storeRegs 0x5#4 ∧ decodeWord 0b1111_0101_0110_0101#16 = .loadRegs 0x5#4 := by decide

theorem test_decode_display :
    decodeWord 0b0000_0000_1110_0000#16 = .clearDisplay ∧ decodeWord 0b1101_0001_0010_1111#16 = .draw 0x1#4 0x2#4 0xF#4 := by decide

theorem test_decode_input_timers :
    decodeWord 0b1110_0111_1001_1110#16 = .skipKeyPressed 0x7#4 ∧ decodeWord 0b1110_0111_1010_0001#16 = .skipKeyNotPressed 0x7#4 ∧
    decodeWord 0b1111_0111_0000_1010#16 = .waitKey 0x7#4 ∧ decodeWord 0b1111_0111_0000_0111#16 = .loadDelay 0x7#4 ∧
    decodeWord 0b1111_0111_0001_0101#16 = .setDelay 0x7#4 ∧ decodeWord 0b1111_0111_0001_1000#16 = .loadSound 0x7#4 := by decide

/-- Vectors E-4 to E-8. -/
theorem test_decode_unimplemented :
    decodeWord 0x5011#16 = .unimplemented 0x5011#16 ∧ decodeWord 0x8AB8#16 = .unimplemented 0x8AB8#16 ∧
    decodeWord 0xF0FF#16 = .unimplemented 0xF0FF#16 ∧ decodeWord 0xB200#16 = .unimplemented 0xB200#16 ∧
    decodeWord 0x0000#16 = .unimplemented 0x0000#16 := by decide

/-- 20_memory.md R62: the byte at the lower address is the high byte. -/
theorem test_decode_bytes : decode [0x12#8, 0x34#8, 0x56#8] = .ok (.jump 0x234#12, [0x56#8]) := by decide

/-- The words of `test_decode_alu` again, encoded. -/
theorem test_encode : encode (.shiftLeft 0x1#4 0x2#4) = 0x812E#16 ∧ encode (.draw 0x1#4 0x2#4 0xF#4) = 0xD12F#16 ∧
    encodeBytes (.call 0xFED#12) = [0x2F#8, 0xED#8] := by decide

theorem test_decode_table_word : decodeTableWord 16 0x812E = some (.shiftLeft 0x1#4 0x2#4) ∧
    decodeTableWord 16 0x00EE = some .ret := by decide

/-! ### Control flow -/

/-- Vector B-5. -/
theorem test_return : gives (fun t => t.pc == 0x0456#16 && t.sp == 0) (step (withStack 1 0x0456#16 (word 0x00EE))) := by decide

/-- Vector B-4. -/
theorem test_return_underflow : faults (.stackUnderflow 0x0200#16) (word 0x00EE) (step (word 0x00EE)) := by decide

/-- Vector B-1. -/
theorem test_jump : gives (fun t => t.pc == 0x0234#16) (step (word 0x1234)) := by decide

/-- Vector B-2. -/
theorem test_call : gives (fun t => t.pc == 0x0300#16 && t.sp == 1 && t.stack[0] == 0x0202#16) (step (word 0x2300)) := by decide

/-- Vector B-3. -/
theorem test_call_overflow :
    faults (.stackOverflow 0x0200#16) (withStack 16 0#16 (word 0x2300)) (step (withStack 16 0#16 (word 0x2300))) := by decide

/-- Vectors S8 and B-7. -/
theorem test_skip_eq_imm : gives (fun t => t.pc == 0x0204#16) (step (with01 0x05#8 0#8 (word 0x3005))) ∧
    gives (fun t => t.pc == 0x0202#16) (step (with01 0x04#8 0#8 (word 0x3005))) := by decide

/-- Vectors B-8 and B-9. -/
theorem test_skip_ne_imm : gives (fun t => t.pc == 0x0204#16) (step (with01 0x04#8 0#8 (word 0x4005))) ∧
    gives (fun t => t.pc == 0x0202#16) (step (with01 0x05#8 0#8 (word 0x4005))) := by decide

/-- Vectors B-10 and B-11. -/
theorem test_skip_eq_reg : gives (fun t => t.pc == 0x0204#16) (step (with01 0x07#8 0x07#8 (word 0x5010))) ∧
    gives (fun t => t.pc == 0x0202#16) (step (with01 0x07#8 0x08#8 (word 0x5010))) := by decide

/-- Vectors B-12 and B-13. -/
theorem test_skip_ne_reg : gives (fun t => t.pc == 0x0204#16) (step (with01 0x07#8 0x08#8 (word 0x9010))) ∧
    gives (fun t => t.pc == 0x0202#16) (step (with01 0x07#8 0x07#8 (word 0x9010))) := by decide

/-- Vector B-14: an odd PC fetches normally. -/
theorem test_odd_pc : gives (fun t => t.getV 0x0#4 == 0x12#8 && t.pc == 0x0203#16)
    (step (withMem 0x201 [0x60#8, 0x12#8] (State.reset.setPc 0x0201#16))) := by decide

/-- Vector B-6: a call in the last word of memory pushes 0x1000. -/
theorem test_call_last_word : gives (fun t => t.pc == 0x0300#16 && t.stack[0] == 0x1000#16)
    (step (withMem 0xFFE [0x23#8, 0x00#8] (State.reset.setPc 0x0FFE#16))) := by decide

/-! ### Arithmetic and logic -/

/-- Vector A-LD-1. -/
theorem test_load_imm : gives (fun t => t.getV 0xA#4 == 0xFF#8 && t.pc == 0x0202#16) (step (word 0x6AFF)) := by decide

/-- Vectors S10 and A-ADDI-2. -/
theorem test_add_imm : gives (fun t => t.getV 0x0#4 == 0x01#8 && t.getV vf == 0x07#8)
      (step ((with01 0xFF#8 0#8 (word 0x7002)).setV vf 0x07#8)) ∧
    gives (fun t => t.getV vf == 0x00#8) (step ((word 0x7F01).setV vf 0xFF#8)) := by decide

/-- Vector A-LD-2. -/
theorem test_load_reg : gives (fun t => t.getV 0x0#4 == 0x42#8) (step (with01 0#8 0x42#8 (word 0x8010))) := by decide

/-- Vector A-LOG-1. -/
theorem test_or : gives (fun t => t.getV 0x0#4 == 0xFF#8 && t.getV vf == 0x07#8)
    (step ((with01 0xF0#8 0x0F#8 (word 0x8011)).setV vf 0x07#8)) := by decide

/-- Vector A-LOG-2. -/
theorem test_and : gives (fun t => t.getV 0x0#4 == 0x30#8) (step (with01 0xF0#8 0x3C#8 (word 0x8012))) := by decide

/-- Vector A-LOG-3. -/
theorem test_xor : gives (fun t => t.getV 0x0#4 == 0xF0#8) (step (with01 0xFF#8 0x0F#8 (word 0x8013))) := by decide

/-- Vectors S2 and A-ADD-1. -/
theorem test_add_reg : gives (fun t => t.getV 0x0#4 == 0x00#8 && t.getV vf == 0x01#8) (step (with01 0xFF#8 0x01#8 (word 0x8014))) ∧
    gives (fun t => t.getV 0x0#4 == 0x80#8 && t.getV vf == 0x00#8) (step (with01 0x7F#8 0x01#8 (word 0x8014))) := by decide

/-- Vectors A-ADD-5 (X = F) and A-ADD-6 (Y = F). -/
theorem test_add_reg_vf : gives (fun t => t.getV vf == 0x01#8) (step ((with01 0#8 0xF5#8 (word 0x8F14)).setV vf 0x10#8)) ∧
    gives (fun t => t.getV 0x0#4 == 0x00#8 && t.getV vf == 0x01#8) (step ((with01 0x01#8 0#8 (word 0x80F4)).setV vf 0xFF#8)) := by
  decide

/-- Vectors S3 and A-SUB-2. -/
theorem test_sub_reg : gives (fun t => t.getV 0x0#4 == 0xFF#8 && t.getV vf == 0x00#8) (step (with01 0x00#8 0x01#8 (word 0x8015))) ∧
    gives (fun t => t.getV 0x0#4 == 0x00#8 && t.getV vf == 0x01#8) (step (with01 0x03#8 0x03#8 (word 0x8015))) := by decide

/-- Vector A-SUB-3 (X = F). -/
theorem test_sub_reg_vf : gives (fun t => t.getV vf == 0x00#8)
    (step (((word 0x8F25).setV vf 0x10#8).setV 0x2#4 0x20#8)) := by decide

/-- Vectors A-SHR-1 and A-SHR-4: the source is V[Y]. -/
theorem test_shift_right : gives (fun t => t.getV 0x0#4 == 0x02#8 && t.getV vf == 0x01#8) (step (with01 0#8 0x05#8 (word 0x8016))) ∧
    gives (fun t => t.getV 0x0#4 == 0x01#8 && t.getV vf == 0x01#8) (step (with01 0xFF#8 0x03#8 (word 0x8016))) := by decide

/-- Vector A-SHR-3 (X = F). -/
theorem test_shift_right_vf : gives (fun t => t.getV vf == 0x00#8) (step (with01 0#8 0x02#8 (word 0x8F16))) := by decide

/-- Vectors A-SUBN-1 and A-SUBN-2. -/
theorem test_sub_reg_yx : gives (fun t => t.getV 0x0#4 == 0x02#8 && t.getV vf == 0x01#8) (step (with01 0x03#8 0x05#8 (word 0x8017))) ∧
    gives (fun t => t.getV 0x0#4 == 0xFE#8 && t.getV vf == 0x00#8) (step (with01 0x05#8 0x03#8 (word 0x8017))) := by decide

/-- Vectors A-SHL-2 and A-SHL-3: the flag is bit 0 of V[Y], not bit 7. -/
theorem test_shift_left : gives (fun t => t.getV 0x0#4 == 0x00#8 && t.getV vf == 0x00#8) (step (with01 0#8 0x80#8 (word 0x801E))) ∧
    gives (fun t => t.getV 0x0#4 == 0x02#8 && t.getV vf == 0x01#8) (step (with01 0#8 0x01#8 (word 0x801E))) := by decide

/-- Vector A-SHL-5 (X = Y = F). -/
theorem test_shift_left_vf : gives (fun t => t.getV vf == 0x01#8) (step ((word 0x8FFE).setV vf 0x81#8)) := by decide

/-- Vector A-RND-1: zero under the mask 00, whatever the byte drawn. -/
theorem test_rand_mask_zero : ∃ t, exec (.randAnd 0x0#4 0x00#8) State.reset = .next t ∧ t.getV 0x0#4 = 0x00#8 :=
  ⟨_, rfl, by simp⟩

/-- Vector A-RND-2: where the byte drawn is 0xAB. -/
theorem test_rand_mask_low (h : Config.randomByte 0 = 0xAB#8) :
    ∃ t, exec (.randAnd 0x0#4 0x0F#8) State.reset = .next t ∧ t.getV 0x0#4 = 0x0B#8 :=
  ⟨_, rfl, by simp [drawRandom, State.reset, h]⟩

/-! ### Index register and memory -/

/-- Vector X-1. -/
theorem test_load_i : gives (fun t => t.i == 0x0123#16) (step (word 0xA123)) := by decide

/-- Vectors X-2 and X-3. -/
theorem test_add_i : gives (fun t => t.i == 0x0001#16 && t.getV vf == 0x00#8) (step (withI 0xFFFF#16 (with01 0x02#8 0#8 (word 0xF01E)))) ∧
    gives (fun t => t.i == 0x1000#16) (step (withI 0x0FFF#16 (with01 0x01#8 0#8 (word 0xF01E)))) := by decide

/-- Vectors X-5 and X-6. -/
theorem test_font_addr : gives (fun t => t.i == 0x0032#16) (step (with01 0x0A#8 0#8 (word 0xF029))) ∧
    gives (fun t => t.i == 0x04FB#16) (step (with01 0xFF#8 0#8 (word 0xF029))) := by decide

/-- Vector S7. -/
theorem test_bcd : gives (fun t => t.mem.readRange 0x300 4 == [0x02#8, 0x05#8, 0x05#8, 0x00#8] && t.i == 0x0300#16)
    (step (withI 0x0300#16 (with01 0xFF#8 0#8 (word 0xF033)))) := by decide

/-- Vectors M-3 and M-4. -/
theorem test_bcd_faults :
    faults (.memoryOutOfBounds 0x1000) (withI 0x0FFE#16 (word 0xF033)) (step (withI 0x0FFE#16 (word 0xF033))) ∧
    faults (.fontWriteViolation 0x4E) (withI 0x004E#16 (word 0xF033)) (step (withI 0x004E#16 (word 0xF033))) := by decide

/-- Vector M-6. -/
theorem test_store_regs : gives (fun t => t.mem.readRange 0x400 4 == [0x01#8, 0x02#8, 0x03#8, 0x00#8] && t.i == 0x0400#16)
    (step (withI 0x0400#16 ((with01 0x01#8 0x02#8 (word 0xF255)).setV 0x2#4 0x03#8))) := by decide

/-- Vectors M-8 and M-9. -/
theorem test_store_regs_faults :
    faults (.memoryOutOfBounds 0x1000) (withI 0x0FF1#16 (word 0xFF55)) (step (withI 0x0FF1#16 (word 0xFF55))) ∧
    faults (.fontWriteViolation 0x40) (withI 0x0040#16 (word 0xF155)) (step (withI 0x0040#16 (word 0xF155))) := by decide

/-- Vector M-10. -/
theorem test_load_regs : gives (fun t => (t.v.toList.take 4 == [0x09#8, 0x08#8, 0x07#8, 0x55#8]) && t.i == 0x0400#16)
    (step (withI 0x0400#16 (withMem 0x400 [0x09#8, 0x08#8, 0x07#8, 0x06#8] ((word 0xF265).setV 0x3#4 0x55#8)))) := by decide

/-- Vector M-12. -/
theorem test_load_regs_fault :
    faults (.memoryOutOfBounds 0x1000) (withI 0x0FFF#16 (word 0xF165)) (step (withI 0x0FFF#16 (word 0xF165))) := by decide

/-! ### Display -/

/-- Vector D-9. -/
theorem test_clear_display : gives (fun t => !t.fb.pixel 3 0 && t.getV vf == 0x03#8)
    (step (((word 0x00E0).setV vf 0x03#8).setFb (blankScreen.toggle 3 0))) := by decide

/-- Vector S5, with the second row of vector D-2: both edges wrap. -/
theorem test_draw_wraps : gives (fun t => t.fb.pixel 63 31 && t.fb.pixel 0 31 && t.fb.pixel 63 0 && !t.fb.pixel 0 0 && t.getV vf == 0x00#8)
    (step (withI 0x0300#16 (withMem 0x300 [0xC0#8, 0x80#8] (with01 63#8 31#8 (word 0xD012))))) := by decide

/-- Vectors D-3 and D-7: a collision, and the fault before any pixel. -/
theorem test_draw_collision :
    gives (fun t => !t.fb.pixel 0 0 && t.getV vf == 0x01#8)
      (step ((withI 0x0300#16 (withMem 0x300 [0x80#8] (word 0xD011))).setFb (blankScreen.toggle 0 0))) ∧
    faults (.memoryOutOfBounds 0x1000) (withI 0x0FFF#16 (word 0xD012)) (step (withI 0x0FFF#16 (word 0xD012))) := by decide

/-! ### Keys and timers -/

/-- Vectors K-1 and K-2. -/
theorem test_skip_key_pressed :
    gives (fun t => t.pc == 0x0204#16) (step ((with01 0x03#8 0#8 (word 0xE09E)).setKey 3 true)) ∧
    gives (fun t => t.pc == 0x0202#16) (step (with01 0x03#8 0#8 (word 0xE09E))) := by decide

/-- Vector K-5. -/
theorem test_skip_key_pressed_fault :
    faults (.keyIndexOutOfRange 0x10#8) (with01 0x10#8 0#8 (word 0xE09E)) (step (with01 0x10#8 0#8 (word 0xE09E))) := by decide

/-- Vectors K-3 and K-4. -/
theorem test_skip_key_not_pressed :
    gives (fun t => t.pc == 0x0204#16) (step (with01 0x03#8 0#8 (word 0xE0A1))) ∧
    gives (fun t => t.pc == 0x0202#16) (step ((with01 0x03#8 0#8 (word 0xE0A1)).setKey 3 true)) := by decide

/-- Vector K-6. -/
theorem test_wait_key : gives (fun t => t.getV 0x5#4 == 0x03#8 && t.pc == 0x0202#16)
    (step (((word 0xF50A).setKey 7 true).setKey 3 true)) := by decide

/-- Vector S9. -/
theorem test_wait_key_none : gives (fun t => t == word 0xF50A) (step (word 0xF50A)) := by decide

/-- Vector T-1. -/
theorem test_load_delay : gives (fun t => t.getV 0x3#4 == 0x3C#8) (step ((word 0xF307).setDt 0x3C#8)) := by decide

/-- Vector T-2. -/
theorem test_set_delay : gives (fun t => t.dt == 0x3C#8 && t.st == 0x00#8) (step ((word 0xF315).setV 0x3#4 0x3C#8)) := by decide

/-- Vector T-3. -/
theorem test_load_sound : gives (fun t => t.st == 0x3C#8 && t.dt == 0x00#8) (step ((word 0xF318).setV 0x3#4 0x3C#8)) := by decide

/-! ### Unimplemented words, fetch and the host -/

/-- Vectors E-4 and E-7. -/
theorem test_unimplemented :
    gives (fun t => t.reports == [0x5011#16] && t.pc == 0x0202#16) (step (with01 0x07#8 0x07#8 (word 0x5011))) ∧
    gives (fun t => t.reports == [0xB200#16] && t.pc == 0x0202#16) (step (with01 0x04#8 0#8 (word 0xB200))) := by decide

/-- Vectors H-2 and H-3. -/
theorem test_fetch_fault :
    faults (.fetchOutOfBounds 0x1000#16) (State.reset.setPc 0x1000#16) (step (State.reset.setPc 0x1000#16)) ∧
    faults (.fetchOutOfBounds 0x0FFF#16) (State.reset.setPc 0x0FFF#16) (step (State.reset.setPc 0x0FFF#16)) := by decide

/-- Vector T-5. -/
theorem test_tick : (transact .tickTimers (State.reset.setSt 0x02#8)).1.st = 0x01#8 ∧
    (transact .tickTimers (State.reset.setSt 0x02#8)).1.dt = 0x00#8 := by decide

/-- 70_reset_and_hazards.md R281: the host reads ST itself, and a tone exactly when it is not 0. -/
theorem test_read_sound_timer : readSoundTimer (State.reset.setSt 0x3C#8) = 0x3C#8 ∧ toneOn (State.reset.setSt 0x3C#8) = true ∧
    toneOn State.reset = false := by decide

/-- Vector H-7, and a negative index. -/
theorem test_set_key : transact (.setKey 16 true) State.reset = (State.reset, .keyIndexInvalid 16) ∧
    transact (.setKey (-1) true) State.reset = (State.reset, .keyIndexInvalid (-1)) := by decide

/-- 70_reset_and_hazards.md R274: a two-byte image. -/
theorem test_load_program : (transact (.loadProgram [0x12#8, 0x00#8]) State.reset).1.mem = [(0x200, 0x12#8)] ∧
    (transact (.loadProgram [0x12#8, 0x00#8]) State.reset).1.pc = 0x0200#16 := by decide

/-- Vector H-8. -/
theorem test_halted : transact .step { State.reset with fault := some (.stackUnderflow 0x0200#16) } =
    ({ State.reset with fault := some (.stackUnderflow 0x0200#16) }, .failure (.stackUnderflow 0x0200#16)) := by decide

/-! ### Witnesses: values that meet the hypotheses of each statement -/

theorem test_witness_return : (withStack 1 0#16 State.reset).sp.val = (0 : Fin 16).val + 1 ∧
    (withStack 16 0#16 State.reset).sp.val = (15 : Fin 16).val + 1 ∧ State.reset.sp.val = 0 := by decide

theorem test_witness_call : State.reset.sp.val = (0 : Fin 16).val ∧ (withStack 15 0#16 State.reset).sp.val = (15 : Fin 16).val ∧
    (withStack 16 0#16 State.reset).sp.val = 16 := by decide

/-- For add-reg, the subtractions and the shifts: a destination that is not VF, the last such. -/
theorem test_witness_destination_not_vf : (0xE#4 : Nibble) ≠ 0xF#4 ∧ (0x0#4 : Nibble) ≠ 0xF#4 := by decide

/-- For the skips on registers: a low nibble that is not 0. -/
theorem test_witness_low_nibble : (0x1#4 : Nibble) ≠ 0x0#4 ∧ (0xF#4 : Nibble) ≠ 0x0#4 := by decide

/-- For rand-and: a mask bit that is 0. -/
theorem test_witness_rand : (0x7F#8 : Byte).getLsbD 7 = false := by decide

theorem test_witness_bcd :
    (0x050 ≤ (withI 0x0050#16 State.reset).i.toNat ∧ (withI 0x0050#16 State.reset).i.toNat + 2 ≤ 0xFFF) ∧
    (0x050 ≤ (withI 0x0FFD#16 State.reset).i.toNat ∧ (withI 0x0FFD#16 State.reset).i.toNat + 2 ≤ 0xFFF) ∧
    State.reset.mem.wf ∧ 0xFFF < (withI 0x0FFE#16 State.reset).i.toNat + 2 ∧ (withI 0x004F#16 State.reset).i.toNat < 0x050 := by
  decide

theorem test_witness_store_regs :
    (0x050 ≤ (withI 0x0050#16 State.reset).i.toNat ∧ (withI 0x0050#16 State.reset).i.toNat + (0xF#4 : Nibble).toNat ≤ 0xFFF) ∧
    (0x050 ≤ (withI 0x0FF0#16 State.reset).i.toNat ∧ (withI 0x0FF0#16 State.reset).i.toNat + (0xF#4 : Nibble).toNat ≤ 0xFFF) ∧
    State.reset.mem.wf ∧ (0xF#4 : Nibble).toNat ≤ (0xF#4 : Nibble).toNat ∧
    0xFFF < (withI 0x0FF1#16 State.reset).i.toNat + (0xF#4 : Nibble).toNat ∧ (withI 0x004F#16 State.reset).i.toNat < 0x050 := by
  decide

theorem test_witness_load_regs :
    (withI 0x0FFF#16 State.reset).i.toNat + (0x0#4 : Nibble).toNat ≤ 0xFFF ∧
    State.reset.i.toNat + (0xF#4 : Nibble).toNat ≤ 0xFFF ∧ (0x0#4 : Nibble).toNat ≤ (0x0#4 : Nibble).toNat ∧
    0xFFF < (withI 0x0FFF#16 State.reset).i.toNat + (0x1#4 : Nibble).toNat := by decide

/-- A state in which a sprite of one row, 0x80, lies at the last byte of memory. -/
def lastByteSprite : State := withI 0x0FFF#16 (withMem 0xFFF [0x80#8] State.reset)

/-- The sprite of `lastByteSprite` covers pixel (0, 0). -/
theorem test_witness_covers : spriteCovers lastByteSprite 0x0#4 0x1#4 0x1#4 0 0 :=
  ⟨0, by decide, 0, by decide, by decide, by decide, by decide⟩

/-- No bit of it lands on pixel (1, 0). -/
theorem test_witness_not_covered : ¬ spriteCovers lastByteSprite 0x0#4 0x1#4 0x1#4 1 0 := by
  rintro ⟨row, hr, col, hc, hb, hx, -⟩
  have hr0 : row = 0 := by simp at hr; omega
  subst hr0
  revert col
  decide

theorem test_witness_draw : (lastByteSprite.i.toNat + (0x1#4 : Nibble).toNat - 1 ≤ 0xFFF) ∧ (0x0#4 : Nibble).toNat = 0 ∧
    (1 ≤ (0x2#4 : Nibble).toNat ∧ 0xFFF < lastByteSprite.i.toNat + (0x2#4 : Nibble).toNat - 1) := by decide

/-- A collision, and no collision. -/
theorem test_witness_draw_collision :
    (∃ c r, spriteCovers (lastByteSprite.setFb (blankScreen.toggle 0 0)) 0x0#4 0x1#4 0x1#4 c r ∧
      (lastByteSprite.setFb (blankScreen.toggle 0 0)).fb.pixel c r = true) ∧
    (∀ c r, spriteCovers lastByteSprite 0x0#4 0x1#4 0x1#4 c r → lastByteSprite.fb.pixel c r = false) :=
  ⟨⟨0, 0, ⟨0, by decide, 0, by decide, by decide, by decide, by decide⟩, by decide⟩, fun c r _ => blankScreen_pixel c r⟩

theorem test_witness_key_skips : ((with01 0x0F#8 0#8 State.reset).getV 0x0#4).toNat = (15 : Fin 16).val ∧
    (State.reset.getV 0x0#4).toNat = (0 : Fin 16).val ∧ 16 ≤ ((with01 0x10#8 0#8 State.reset).getV 0x0#4).toNat := by decide

theorem test_witness_wait_key : (∀ k : Fin 16, State.reset.key[k.val] = false) ∧
    ((State.reset.setKey 15 true).key[(15 : Fin 16).val] = true ∧
      ∀ j : Fin 16, j < 15 → (State.reset.setKey 15 true).key[j.val] = false) ∧
    (State.reset.setKey 0 true).key[(0 : Fin 16).val] = true := by decide

theorem test_witness_unimplemented : (∀ r ∈ opcodeRows, rowMatches r 0xB200#16 = false) ∧
    (∀ r ∈ opcodeRows, rowMatches r 0x00E1#16 = false) := by decide

theorem test_witness_step :
    ((word 0x6005).fault = none ∧ (word 0x6005).pc.toNat + 1 ≤ 0xFFF ∧
      decode [(word 0x6005).mem.read (word 0x6005).pc.toNat, (word 0x6005).mem.read ((word 0x6005).pc.toNat + 1)] =
        .ok (.loadImm 0x0#4 0x05#8, []) ∧ (Instr.loadImm 0x0#4 0x05#8).wellFormed = true) ∧
    (State.reset.setPc 0x0FFE#16).pc.toNat + 1 ≤ 0xFFF ∧
    ((State.reset.setPc 0x0FFF#16).fault = none ∧ 0xFFF < (State.reset.setPc 0x0FFF#16).pc.toNat + 1) ∧
    ({ State.reset with fault := some (.stackOverflow 0#16) } : State).fault = some (.stackOverflow 0#16) := by decide

/-- For list decoding: a word and its two bytes. -/
theorem test_witness_two_bytes : (0xFE01#16 : Word).toNat = 256 * (0xFE#8 : Byte).toNat + (0x01#8 : Byte).toNat := by decide

/-- For the fetch of the last whole word of memory. -/
theorem test_witness_last_word : (State.reset.setPc 0x0FFE#16).pc.toNat + 1 ≤ 0xFFF := by decide

/-- The two lengths that are refused, and the first that is not (log entry 14). -/
theorem test_witness_truncated : decode [0x12#8] = .error (.truncated 1) ∧ decode [] = .error (.truncated 0) ∧
    ¬ [0x12#8, 0x34#8].length < 2 := by decide

theorem test_witness_well_formed : (Instr.draw 0xF#4 0x0#4 0xF#4).wellFormed = true ∧
    (Instr.unimplemented 0xF000#16).wellFormed = true := by decide

theorem test_witness_placed_word : (word 0x2300).mem.wf ∧ 65535 < 65536 := by decide

theorem test_witness_not_halted : State.reset.fault = none := by decide

/-- A step that takes a fault. -/
theorem test_witness_precise : (word 0x00EE).fault = none ∧
    ∃ t, step (word 0x00EE) = .next t ∧ t.fault = some (.stackUnderflow 0x0200#16) := ⟨by decide, _, rfl, by decide⟩

theorem test_witness_halted :
    ({ State.reset with fault := some (.fetchOutOfBounds 0x1000#16) } : State).fault = some (.fetchOutOfBounds 0x1000#16) := by decide

/-- The font of a state whose memory lists only bytes above it. -/
theorem test_witness_memory : (word 0xF033).memoryInv ∧ ∃ t, step (withI 0x0300#16 (word 0xF033)) = .next t := by
  refine ⟨⟨by decide, fun a ha => ?_⟩, _, rfl⟩
  rw [show (word 0xF033).mem = ([(0x200, 0xF0#8), (0x201, 0x33#8)] : Memory) by decide]
  have ha' : a < 80 := ha
  simp only [Memory.read]
  rw [if_neg (by simp; omega), if_neg (by simp; omega)]
  exact initialByte_font ha

/-- The bound of PC and of a return address, reached: a skip in the last word of memory leaves PC at 0x1002. -/
theorem test_witness_pc_bound :
    (withStack 16 0x1000#16 (withMem 0xFFE [0x30#8, 0x00#8] (State.reset.setPc 0x0FFE#16))).pcInv ∧
    gives (fun t => t.pc == 0x1002#16)
      (step (withStack 16 0x1000#16 (withMem 0xFFE [0x30#8, 0x00#8] (State.reset.setPc 0x0FFE#16)))) := by decide

theorem test_witness_host_interleaving : (word 0xF033).pcInv := by decide

theorem test_witness_parts : ∃ t, exec (.addImm 0x0#4 0x01#8) State.reset = .next t ∧ writesFlag (.addImm 0x0#4 0x01#8) = false ∧
    destination (.addImm 0x0#4 0x01#8) ≠ some 0xF#4 ∧ Instr.addImm 0x0#4 0x01#8 ≠ .loadRegs 0xF#4 :=
  ⟨_, rfl, by decide, by decide, by decide⟩

/-- What a frame must not let through: add-imm may write neither PC nor FAULT, a call PC but FAULT only at SP = 16. -/
theorem test_may_write : ¬ mayWrite (.addImm 0x0#4 0x01#8) State.reset .pc ∧ ¬ mayWrite (.addImm 0x0#4 0x01#8) State.reset .fault ∧
    mayWrite (.call 0x300#12) State.reset .pc ∧ ¬ mayWrite (.call 0x300#12) State.reset .fault ∧
    mayWrite (.call 0x300#12) (withStack 16 0#16 State.reset) .fault := by
  simp only [mayWrite]; decide

theorem test_witness_never_read : ∃ t, step (word 0xF318) = .next t := ⟨_, rfl⟩

/-- Two stacks that agree below SP = 1 and differ above. -/
theorem test_witness_dead_slots :
    (∀ k : Fin 16, k.val < (withStack 1 0x0456#16 (word 0x00EE)).sp.val →
      ((Vector.replicate 16 0#16).set 0 0x0456#16)[k.val] = (withStack 1 0x0456#16 (word 0x00EE)).stack[k.val]) ∧
    ∃ t, step (withStack 1 0x0456#16 (word 0x00EE)) = .next t := ⟨by decide, _, rfl⟩

/-- A call from SP = 15, and the state in which it is taken again as the state before the return. -/
theorem test_witness_call_return : (withStack 15 0#16 State.reset).sp.val < 16 ∧
    gives (fun t => t.sp == 16) (exec (.call 0x300#12) (withStack 15 0#16 State.reset)) := by decide

theorem test_witness_draw_twice : (lastByteSprite.i.toNat + (0x1#4 : Nibble).toNat - 1 ≤ 0xFFF) ∧
    ∃ t, exec (.draw 0x0#4 0x1#4 0x1#4) lastByteSprite = .next t ∧ t.getV 0x0#4 = lastByteSprite.getV 0x0#4 ∧
      t.getV 0x1#4 = lastByteSprite.getV 0x1#4 := ⟨by decide, _, rfl, by decide, by decide⟩

/-- For a second draw that collides, and for one that does not. -/
theorem test_witness_draw_twice_flag :
    (∃ c r, spriteCovers lastByteSprite 0x0#4 0x1#4 0x1#4 c r ∧ lastByteSprite.fb.pixel c r = false) ∧
    (∀ c r, spriteCovers (lastByteSprite.setFb (Vector.replicate 64 (Vector.replicate 32 true))) 0x0#4 0x1#4 0x1#4 c r →
      (lastByteSprite.setFb (Vector.replicate 64 (Vector.replicate 32 true))).fb.pixel c r = true) :=
  ⟨⟨0, 0, test_witness_covers, by decide⟩, fun c r _ => by simp [FrameBuffer.pixel]⟩

theorem test_witness_draw_wraps : (withI 0x0FFE#16 (with01 63#8 31#8 State.reset)).getV 0x0#4 = 63#8 ∧
    (withI 0x0FFE#16 (with01 63#8 31#8 State.reset)).getV 0x1#4 = 31#8 ∧ 2 ≤ (0x2#4 : Nibble).toNat ∧
    (withI 0x0FFE#16 (with01 63#8 31#8 State.reset)).i.toNat + (0x2#4 : Nibble).toNat - 1 ≤ 0xFFF := by decide

theorem test_witness_fetch_sees_store : State.reset.mem.wf ∧ 1 ≤ (0x1#4 : Nibble).toNat ∧
    0x050 ≤ (withI 0x0050#16 State.reset).i.toNat ∧ (withI 0x0FFE#16 State.reset).i.toNat + (0x1#4 : Nibble).toNat ≤ 0xFFF := by
  decide

theorem test_witness_ended : (word 0x1200).ended := ⟨by decide, by decide, 0x200#12, by decide, by decide⟩

theorem test_witness_wait_forever : (word 0xF50A).fault = none ∧ (word 0xF50A).pc.toNat ≤ 0xFFE ∧
    fetch16 (word 0xF50A).mem (word 0xF50A).pc.toNat = 0xF#4 ++ 0x5#4 ++ 0x0A#8 ∧
    (∀ j : Fin 16, (word 0xF50A).key[j.val] = false) := by decide

theorem test_witness_transactions : State.reset.fault = none ∧
    ({ State.reset with fault := some (.stackUnderflow 0#16) } : State).fault ≠ none := by decide

theorem test_witness_set_key : (0 : Int) = ((0 : Fin 16).val : Int) ∧ (15 : Int) = ((15 : Fin 16).val : Int) ∧
    ((-1 : Int) < 0 ∨ (16 : Int) ≤ -1) ∧ ((16 : Int) < 0 ∨ (16 : Int) ≤ 16) := by decide

theorem test_witness_load_program : (List.replicate 3584 0x12#8).length ≤ 3584 ∧ 3584 < (List.replicate 3585 0x12#8).length ∧
    3583 < (List.replicate 3584 0x12#8).length := by
  simp only [List.length_replicate]; decide

end Sys2Proof.Tests
end

section
/-! The fetched word as a number (20_memory.md R62). -/

namespace Sys2Proof

/-- The byte at the lower address weighs 256 (20_memory.md R62). -/
theorem bigEndian_toNat (hi lo : Byte) : (bigEndian hi lo).toNat = 256 * hi.toNat + lo.toNat := by
  have shifted : (bigEndian hi lo).toNat = hi.toNat <<< 8 ||| lo.toNat := BitVec.toNat_append hi lo
  rw [shifted, ← Nat.shiftLeft_add_eq_or_of_lt lo.isLt, Nat.shiftLeft_eq]
  omega

end Sys2Proof

namespace Sys2Proof.Machine

theorem fetch16_toNat (m : Memory) (a : Nat) :
    (fetch16 m a).toNat = 256 * (m.read a).toNat + (m.read (a + 1)).toNat :=
  bigEndian_toNat (m.read a) (m.read (a + 1))

theorem fetch_of_le (s : State) (inRange : s.pc.toNat + 1 ≤ 0xFFF) :
    fetch s = .ok (decodeWord (fetch16 s.mem s.pc.toNat)) := by
  obtain ⟨-, fetched⟩ | ⟨outOfRange, -⟩ := fetch_cases s
  · exact fetched
  · omega

/-- Settles O23, from the value of a big-endian pair and the fetch's own two cases. -/
theorem twoBytesAreOneBigEndianWord : Obligations.TwoBytesAreOneBigEndianWord :=
  ⟨fetch16_toNat, fetch_of_le⟩

end Sys2Proof.Machine
end

section
/-! What one step does, by the three cases of the core: halted, unable to fetch, able to fetch (30_encoding.md R97). -/

namespace Sys2Proof

/-- Two bytes decode to the instruction of their big-endian word alone. -/
theorem decode_pair_ok {hi lo : Byte} {i : Instr} {rest : List Byte} (decoded : decode [hi, lo] = .ok (i, rest)) :
    decodeWord (bigEndian hi lo) = i :=
  congrArg Prod.fst (Except.ok.inj decoded)

end Sys2Proof

namespace Sys2Proof.Machine

/-- A halted core gives its recorded failure again (60_exceptions.md R247). -/
theorem step_of_halted {s : State} {f : Fault} (halted : s.fault = some f) : step s = .fault f := by
  simp only [step, halted]

/-- A step that cannot fetch takes the fetch's fault and does nothing else (20_memory.md R63). -/
theorem step_of_fetch_error {s : State} {f : Fault} (running : s.fault = none) (failed : fetch s = .error f) :
    step s = .next (enterFault f s) := by
  simp only [step, running, failed]

theorem fetch_of_gt (s : State) (outOfRange : 0xFFF < s.pc.toNat + 1) : fetch s = .error (.fetchOutOfBounds s.pc) := by
  obtain ⟨inRange, -⟩ | ⟨-, failed⟩ := fetch_cases s
  · omega
  · exact failed

/-- Settles O22: the list decoder and the fetch agree on the two bytes at PC, and each clause is one case of the step. -/
theorem stepRunsTheDecodedInstruction : Obligations.StepRunsTheDecodedInstruction := by
  intro s
  refine ⟨?fetches, ?outOfBounds, ?halted⟩
  case fetches =>
    intro i rest running inRange decoded _
    have word : decodeWord (fetch16 s.mem s.pc.toNat) = i := decode_pair_ok decoded
    rw [step_of_fetch running (by omega), word]
    rfl
  case outOfBounds =>
    intro running outOfRange
    exact step_of_fetch_error running (fetch_of_gt s outOfRange)
  case halted =>
    intro f halted
    exact step_of_halted halted

end Sys2Proof.Machine
end

section
/-! What the words of the classes 1 to 5 and 9 decode to, written out from their fields (30_encoding.md R95). -/

namespace Sys2Proof

theorem decodeWord_jump (nnn : Addr12) : decodeWord (formA 0x1#4 nnn) = .jump nnn := by
  simp [decodeWord, formA_d1, formA_nnn]

theorem decodeWord_call (nnn : Addr12) : decodeWord (formA 0x2#4 nnn) = .call nnn := by
  simp [decodeWord, formA_d1, formA_nnn]

theorem decodeWord_skipEqImm (x : Nibble) (nn : Byte) : decodeWord (formXI 0x3#4 x nn) = .skipEqImm x nn := by
  simp [decodeWord, formXI_d1, formXI_x, formXI_nn]

theorem decodeWord_skipNeImm (x : Nibble) (nn : Byte) : decodeWord (formXI 0x4#4 x nn) = .skipNeImm x nn := by
  simp [decodeWord, formXI_d1, formXI_x, formXI_nn]

/-- The low nibble decides between skip-eq-reg and an unimplemented word (40_control_flow.md R126). -/
theorem decodeWord_formXYN_class5 (x y n : Nibble) : decodeWord (formXYN 0x5#4 x y n) =
    if n = 0x0#4 then .skipEqReg x y else .unimplemented (formXYN 0x5#4 x y n) := by
  simp [decodeWord, formXYN_d1, formXYN_x, formXYN_y, formXYN_n]

/-- The low nibble decides between skip-ne-reg and an unimplemented word (40_control_flow.md R127). -/
theorem decodeWord_formXYN_class9 (x y n : Nibble) : decodeWord (formXYN 0x9#4 x y n) =
    if n = 0x0#4 then .skipNeReg x y else .unimplemented (formXYN 0x9#4 x y n) := by
  simp [decodeWord, formXYN_d1, formXYN_x, formXYN_y, formXYN_n]

end Sys2Proof
end

section
/-! The skips (40_control_flow.md R123 to R127): every one of them is `skipIf` of its condition, so its effect on PC and its frame
are said once. -/

namespace Sys2Proof.Machine

/-- A skip moves PC two further exactly when its condition holds (40_control_flow.md R124). -/
theorem skipIf_pc (c : Bool) (s : State) : (skipIf c s).pc = if c then s.pc + 2 else s.pc := by
  cases c <;> rfl

theorem skipIf_frame (c : Bool) (s : State) : unchangedBut (fun p => p = .pc) s (skipIf c s) := by
  cases c with
  | false => exact unchangedBut_refl _ s
  | true => exact setPc_frame s (s.pc + 2)

theorem skipIf_beq_pc (a b : Byte) (s : State) : (skipIf (a == b) s).pc = if a = b then s.pc + 2 else s.pc := by
  simp only [skipIf_pc, beq_iff_eq]

theorem skipIf_bne_pc (a b : Byte) (s : State) : (skipIf (a != b) s).pc = if a = b then s.pc else s.pc + 2 := by
  simp only [skipIf_pc, bne_iff_ne, ne_eq, ite_not]

/-- Settles O5: both skips are `skipIf` on the comparison of V[X] with NN. -/
theorem skipsOnImmediatesMoveOnlyThePc : Obligations.SkipsOnImmediatesMoveOnlyThePc := by
  intro x nn
  refine ⟨decodeWord_skipEqImm x nn, decodeWord_skipNeImm x nn, fun s => ⟨?skipEq, ?skipNe⟩⟩
  case skipEq => exact ⟨_, rfl, skipIf_beq_pc _ _ s, skipIf_frame _ s⟩
  case skipNe => exact ⟨_, rfl, skipIf_bne_pc _ _ s, skipIf_frame _ s⟩

/-- Settles O6: both skips are `skipIf` on the comparison of V[X] with V[Y], and classes 5 and 9 ask for the low nibble 0. -/
theorem skipsOnRegistersMoveOnlyThePc : Obligations.SkipsOnRegistersMoveOnlyThePc := by
  intro x y
  refine ⟨decodeWord_formXYN_class5 x y 0x0#4, decodeWord_formXYN_class9 x y 0x0#4, ?otherLowNibble, fun s => ⟨?skipEq, ?skipNe⟩⟩
  case otherLowNibble =>
    intro n nonzero
    exact ⟨(decodeWord_formXYN_class5 x y n).trans (if_neg nonzero), (decodeWord_formXYN_class9 x y n).trans (if_neg nonzero)⟩
  case skipEq => exact ⟨_, rfl, skipIf_beq_pc _ _ s, skipIf_frame _ s⟩
  case skipNe => exact ⟨_, rfl, skipIf_bne_pc _ _ s, skipIf_frame _ s⟩

end Sys2Proof.Machine
end

section
/-! Jump, call and return (40_control_flow.md R120 to R122): the stack operation of each, with SP given, then the state it leaves. -/

namespace Sys2Proof.Machine

theorem zextAddr_toNat (nnn : Addr12) : (zextAddr nnn).toNat = nnn.toNat :=
  BitVec.toNat_setWidth_of_le (by decide)

/-- Settles O3: jump is one write of PC, of the address with four zero bits above it. -/
theorem jumpSetsThePc : Obligations.JumpSetsThePc := by
  intro nnn
  exact ⟨decodeWord_jump nnn, fun s => ⟨_, rfl, zextAddr_toNat nnn, setPc_frame s _⟩⟩

/-! ### Return -/

theorem popReturn_of_sp_succ {s : State} {k : Fin 16} (sp : s.sp.val = k.val + 1) :
    popReturn s = .ok (s.stack[k.val], s.setStack s.stack k.castSucc) := by
  obtain ⟨_, _, _, popped⟩ | ⟨empty, -⟩ := popReturn_cases s
  · simp only [popped, sp, Nat.add_sub_cancel]
    rfl
  · omega

theorem popReturn_of_sp_zero {s : State} (empty : s.sp.val = 0) : popReturn s = .error (.stackUnderflow (pcInsn s)) := by
  obtain ⟨nonempty, -⟩ | ⟨-, failed⟩ := popReturn_cases s
  · omega
  · exact failed

theorem execReturn_of_sp_succ {s : State} {k : Fin 16} (sp : s.sp.val = k.val + 1) :
    execReturn s = .next ((s.setStack s.stack k.castSucc).setPc s.stack[k.val]) := by
  rw [execReturn, popReturn_of_sp_succ sp]
  rfl

theorem execReturn_of_sp_zero {s : State} (empty : s.sp.val = 0) :
    execReturn s = .next (raise (.stackUnderflow (pcInsn s)) s) := by
  rw [execReturn, popReturn_of_sp_zero empty]
  rfl

/-- SP moved over an unwritten stack. -/
theorem setStack_sp_frame (s : State) (n : Fin 17) : unchangedBut (fun p => p = .sp) s (s.setStack s.stack n) := by
  intro p other
  cases p with
  | sp => exact absurd rfl other
  | _ => rfl

/-- A return writes SP and PC and clears no slot (40_control_flow.md R120). -/
theorem pop_setPc_frame (s : State) (n : Fin 17) (a : Word) :
    unchangedBut (fun p => p = .pc ∨ p = .sp) s ((s.setStack s.stack n).setPc a) :=
  .trans ((setStack_sp_frame s n).mono fun _ => .inr) ((setPc_frame _ a).mono fun _ => .inl)

/-- Settles O2: SP decides between the pop, which names slot and new SP, and the underflow. -/
theorem returnPopsItsAddressOrUnderflows : Obligations.ReturnPopsItsAddressOrUnderflows := by
  refine ⟨by decide, fun s => ⟨?pops, ?underflows⟩⟩
  case pops =>
    intro k sp
    exact ⟨_, execReturn_of_sp_succ sp, rfl, rfl, pop_setPc_frame s _ _⟩
  case underflows =>
    intro empty
    exact execReturn_of_sp_zero empty

/-! ### Call -/

theorem pushReturn_of_sp_eq {s : State} {k : Fin 16} (a : Word) (sp : s.sp.val = k.val) :
    pushReturn a s = .ok (s.setStack (s.stack.set k.val a k.isLt) k.succ) := by
  obtain ⟨_, pushed⟩ | ⟨full, -⟩ := pushReturn_cases a s
  · simp only [pushed, sp]
    rfl
  · omega

theorem pushReturn_of_sp_full {s : State} (a : Word) (full : s.sp.val = 16) :
    pushReturn a s = .error (.stackOverflow (pcInsn s)) := by
  obtain ⟨room, -⟩ | ⟨-, failed⟩ := pushReturn_cases a s
  · omega
  · exact failed

theorem execCall_of_sp_eq {s : State} {k : Fin 16} (nnn : Addr12) (sp : s.sp.val = k.val) :
    execCall nnn s = .next ((s.setStack (s.stack.set k.val s.pc k.isLt) k.succ).setPc (zextAddr nnn)) := by
  rw [execCall, pushReturn_of_sp_eq s.pc sp]
  rfl

theorem execCall_of_sp_full {s : State} (nnn : Addr12) (full : s.sp.val = 16) :
    execCall nnn s = .next (raise (.stackOverflow (pcInsn s)) s) := by
  rw [execCall, pushReturn_of_sp_full s.pc full]
  rfl

/-- A call writes one slot, SP and PC (40_control_flow.md R122). -/
theorem push_setPc_frame (s : State) (k : Fin 16) (a : Word) (n : Fin 17) (target : Word) :
    unchangedBut (fun p => p = .pc ∨ p = .sp ∨ p = .stackSlot k) s
      ((s.setStack (s.stack.set k.val a k.isLt) n).setPc target) :=
  .trans ((setStack_slot_frame s k a n).mono fun _ => .inr) ((setPc_frame _ target).mono fun _ => .inl)

/-- Settles O4: SP decides between the push, which names slot and new SP, and the overflow. -/
theorem callPushesAndJumpsOrOverflows : Obligations.CallPushesAndJumpsOrOverflows := by
  intro nnn
  refine ⟨decodeWord_call nnn, fun s => ⟨?pushes, ?overflows⟩⟩
  case pushes =>
    intro k sp
    refine ⟨_, execCall_of_sp_eq nnn sp, ?slot, rfl, zextAddr_toNat nnn, push_setPc_frame s k _ _ _⟩
    exact Vector.getElem_set_self k.isLt
  case overflows =>
    intro full
    exact execCall_of_sp_full nnn full

end Sys2Proof.Machine
end

section
/-! What the words of the classes 6, 7 and 8 decode to, written out from their fields (30_encoding.md R95); the two subtractions of
class 8 are left out. -/

namespace Sys2Proof

theorem decodeWord_loadImm (x : Nibble) (nn : Byte) : decodeWord (formXI 0x6#4 x nn) = .loadImm x nn := by
  simp [decodeWord, formXI_d1, formXI_x, formXI_nn]

theorem decodeWord_addImm (x : Nibble) (nn : Byte) : decodeWord (formXI 0x7#4 x nn) = .addImm x nn := by
  simp [decodeWord, formXI_d1, formXI_x, formXI_nn]

/-- In class 8 the low nibble alone selects the operation. -/
theorem decodeWord_formXYN_class8 (x y n : Nibble) : decodeWord (formXYN 0x8#4 x y n) = decodeClass8 (formXYN 0x8#4 x y n) := by
  simp [decodeWord, formXYN_d1]

theorem decodeWord_loadReg (x y : Nibble) : decodeWord (formXYN 0x8#4 x y 0x0#4) = .loadReg x y := by
  simp [decodeWord_formXYN_class8, decodeClass8, formXYN_x, formXYN_y, formXYN_n]

theorem decodeWord_orReg (x y : Nibble) : decodeWord (formXYN 0x8#4 x y 0x1#4) = .orReg x y := by
  simp [decodeWord_formXYN_class8, decodeClass8, formXYN_x, formXYN_y, formXYN_n]

theorem decodeWord_andReg (x y : Nibble) : decodeWord (formXYN 0x8#4 x y 0x2#4) = .andReg x y := by
  simp [decodeWord_formXYN_class8, decodeClass8, formXYN_x, formXYN_y, formXYN_n]

theorem decodeWord_xorReg (x y : Nibble) : decodeWord (formXYN 0x8#4 x y 0x3#4) = .xorReg x y := by
  simp [decodeWord_formXYN_class8, decodeClass8, formXYN_x, formXYN_y, formXYN_n]

theorem decodeWord_addReg (x y : Nibble) : decodeWord (formXYN 0x8#4 x y 0x4#4) = .addReg x y := by
  simp [decodeWord_formXYN_class8, decodeClass8, formXYN_x, formXYN_y, formXYN_n]

theorem decodeWord_shiftRight (x y : Nibble) : decodeWord (formXYN 0x8#4 x y 0x6#4) = .shiftRight x y := by
  simp [decodeWord_formXYN_class8, decodeClass8, formXYN_x, formXYN_y, formXYN_n]

theorem decodeWord_shiftLeft (x y : Nibble) : decodeWord (formXYN 0x8#4 x y 0xE#4) = .shiftLeft x y := by
  simp [decodeWord_formXYN_class8, decodeClass8, formXYN_x, formXYN_y, formXYN_n]

end Sys2Proof
end

section
/-! The ALU instructions (41_alu.md R142 to R152): each is one register write, or one result with its flag routed behind it, so the
value read back and the frame are said once for the two forms. -/

namespace Sys2Proof.Machine

/-! ### One register written -/

theorem State.setV_getV_self (s : State) (x : Nibble) (b : Byte) : (s.setV x b).getV x = b := by
  rw [State.setV_getV, if_pos rfl]

theorem State.setV_getV_of_ne (s : State) {x y : Nibble} (b : Byte) (other : y ≠ x) : (s.setV x b).getV y = s.getV y := by
  rw [State.setV_getV, if_neg other]

/-- Settles O7: both are one write of V[X], and a byte addition is the sum modulo 256. -/
theorem immediateLoadAndAddWriteOnlyTheirRegister : Obligations.ImmediateLoadAndAddWriteOnlyTheirRegister := by
  intro x nn
  refine ⟨decodeWord_loadImm x nn, decodeWord_addImm x nn, fun s => ⟨?load, ?add⟩⟩
  case load => exact ⟨_, rfl, s.setV_getV_self x nn, setV_frame s x nn⟩
  case add =>
    refine ⟨_, rfl, ?_, setV_frame s x _⟩
    rw [State.setV_getV_self, BitVec.toNat_add]

/-- Settles O8: all four are one write of V[X], and the logic operations act on each bit by itself. -/
theorem registerLoadAndLogicWriteOnlyTheirRegister : Obligations.RegisterLoadAndLogicWriteOnlyTheirRegister := by
  intro x y
  refine ⟨decodeWord_loadReg x y, decodeWord_orReg x y, decodeWord_andReg x y, decodeWord_xorReg x y,
    fun s => ⟨?load, ?or, ?and, ?xor⟩⟩
  case load => exact ⟨_, rfl, s.setV_getV_self x _, setV_frame s x _⟩
  case or =>
    refine ⟨_, rfl, fun k _ => ?_, setV_frame s x _⟩
    rw [State.setV_getV_self, BitVec.getLsbD_or]
  case and =>
    refine ⟨_, rfl, fun k _ => ?_, setV_frame s x _⟩
    rw [State.setV_getV_self, BitVec.getLsbD_and]
  case xor =>
    refine ⟨_, rfl, fun k _ => ?_, setV_frame s x _⟩
    rw [State.setV_getV_self, BitVec.getLsbD_xor]

/-! ### A result, then the flag -/

/-- The flag is written last, so it stands in VF whatever X is (41_alu.md R141). -/
theorem writeResultThenFlag_getV_vf (x : Nibble) (result flag : Byte) (s : State) :
    (writeResultThenFlag x result flag s).getV vf = flag := by
  rw [writeResultThenFlag_getV, if_pos rfl]

theorem writeResultThenFlag_getV_result {x : Nibble} (result flag : Byte) (s : State) (notVf : x ≠ vf) :
    (writeResultThenFlag x result flag s).getV x = result := by
  rw [writeResultThenFlag_getV, if_neg notVf, if_pos rfl]

theorem writeResultThenFlag_frame (x : Nibble) (result flag : Byte) (s : State) :
    unchangedBut (fun p => p = .reg x ∨ p = .reg vf) s (writeResultThenFlag x result flag s) :=
  .trans ((setV_frame s x result).mono fun _ => .inl) ((setV_frame _ vf flag).mono fun _ => .inr)

/-- Settles O9: the flag is the carry of the exact sum, and a byte addition is the sum modulo 256. -/
theorem addRegWritesSumThenCarry : Obligations.AddRegWritesSumThenCarry := by
  intro x y
  refine ⟨decodeWord_addReg x y, fun s => ⟨_, rfl, ?flag, ?sum, writeResultThenFlag_frame x _ _ s⟩⟩
  case flag => exact (writeResultThenFlag_getV_vf x _ _ s).trans (carryFlag_eq _ _)
  case sum =>
    intro notVf
    rw [writeResultThenFlag_getV_result _ _ s notVf, BitVec.toNat_add]

theorem ushiftRight_one_toNat (b : Byte) : (b >>> 1).toNat = b.toNat / 2 := by
  rw [BitVec.toNat_ushiftRight, Nat.shiftRight_one]

theorem shiftLeft_one_toNat (b : Byte) : (b <<< 1).toNat = 2 * b.toNat % 256 := by
  rw [BitVec.toNat_shiftLeft, Nat.shiftLeft_eq, Nat.pow_one, Nat.mul_comm]

/-- Settles O11: both shifts take V[Y] and its bit 0, and differ only in the result they route. -/
theorem shiftsTakeVyAndItsLowBit : Obligations.ShiftsTakeVyAndItsLowBit := by
  intro x y
  refine ⟨decodeWord_shiftRight x y, decodeWord_shiftLeft x y, fun s => ?_⟩
  have flag (result : Byte) : (writeResultThenFlag x result (shiftFlag (s.getV y)) s).getV vf =
      if (s.getV y).toNat % 2 = 1 then 0x01#8 else 0x00#8 :=
    (writeResultThenFlag_getV_vf x result _ s).trans (shiftFlag_eq _)
  refine ⟨⟨_, rfl, flag _, ?right, writeResultThenFlag_frame x _ _ s⟩, ⟨_, rfl, flag _, ?left, writeResultThenFlag_frame x _ _ s⟩⟩
  case right =>
    intro notVf
    rw [writeResultThenFlag_getV_result _ _ s notVf, ushiftRight_one_toNat]
  case left =>
    intro notVf
    rw [writeResultThenFlag_getV_result _ _ s notVf, shiftLeft_one_toNat]

end Sys2Proof.Machine
end

section
/-! The instructions that may raise a fault, each as `finish` of its check and the state it then computes; and wait-key by its two
cases. -/

namespace Sys2Proof.Machine

theorem execReturn_eq_finish (s : State) : execReturn s = finish s ((popReturn s).map fun popped => popped.2.setPc popped.1) := by
  unfold execReturn
  cases popReturn s <;> rfl

theorem execCall_eq_finish (nnn : Addr12) (s : State) :
    execCall nnn s = finish s ((pushReturn s.pc s).map (·.setPc (zextAddr nnn))) := by
  unfold execCall
  cases pushReturn s.pc s <;> rfl

theorem execDraw_eq_finish (x y n : Nibble) (s : State) :
    execDraw x y n s = finish s ((checkRead s.i n.toNat).map fun _ =>
      let drawn := drawRows (s.getV x) (s.getV y) 0 (spriteRows s n) (s.fb, false)
      (s.setFb drawn.1).setV vf (flagByte drawn.2)) := by
  unfold execDraw
  cases checkRead s.i n.toNat <;> rfl

theorem execBcd_eq_finish (x : Nibble) (s : State) :
    execBcd x s = finish s ((checkWrite s.i 3).map fun _ => s.setMem (s.mem.writeRange s.i.toNat (bcdDigits (s.getV x)))) := by
  unfold execBcd
  cases checkWrite s.i 3 <;> rfl

theorem execStoreRegs_eq_finish (x : Nibble) (s : State) :
    execStoreRegs x s =
      finish s ((checkWrite s.i (x.toNat + 1)).map fun _ => s.setMem (s.mem.writeRange s.i.toNat (regsUpTo s x))) := by
  unfold execStoreRegs
  cases checkWrite s.i (x.toNat + 1) <;> rfl

theorem execLoadRegs_eq_finish (x : Nibble) (s : State) :
    execLoadRegs x s = finish s ((checkRead s.i (x.toNat + 1)).map fun _ => s.setRegs (regsFromMemory s x)) := by
  unfold execLoadRegs
  cases checkRead s.i (x.toNat + 1) <;> rfl

theorem execSkipKeyPressed_eq_finish (x : Nibble) (s : State) :
    execSkipKeyPressed x s = finish s ((keyIndex (s.getV x)).map fun k => skipIf s.key[k.val] s) := by
  unfold execSkipKeyPressed
  cases keyIndex (s.getV x) <;> rfl

theorem execSkipKeyNotPressed_eq_finish (x : Nibble) (s : State) :
    execSkipKeyNotPressed x s = finish s ((keyIndex (s.getV x)).map fun k => skipIf (!s.key[k.val]) s) := by
  unfold execSkipKeyNotPressed
  cases keyIndex (s.getV x) <;> rfl

theorem execWaitKey_of_none (x : Nibble) {s : State} (idle : lowestKey s.key = none) : execWaitKey x s = .next (rewind s) := by
  simp only [execWaitKey, idle]

theorem execWaitKey_of_some (x : Nibble) {s : State} {k : Fin 16} (found : lowestKey s.key = some k) :
    execWaitKey x s = .next (s.setV x (BitVec.ofNat 8 k.val)) := by
  simp only [execWaitKey, found]

end Sys2Proof.Machine
end

section
/-! Which registers an instruction leaves alone: those `mayWrite` does not name. VF is one of them unless the instruction writes it
as a flag, as its destination, or as the last register of load-regs (41_alu.md R154). -/

namespace Sys2Proof.Machine

/-! ### The shared operations -/

theorem writeResultThenFlag_getV_other {x r : Nibble} (result flag : Byte) (s : State) (notVf : r ≠ vf) (other : r ≠ x) :
    (writeResultThenFlag x result flag s).getV r = s.getV r := by
  rw [writeResultThenFlag_getV, if_neg notVf, if_neg other]

theorem skipIf_getV (c : Bool) (s : State) (r : Nibble) : (skipIf c s).getV r = s.getV r := by
  cases c <;> rfl

theorem pushReturn_getV {a : Word} {s u : State} (pushed : pushReturn a s = .ok u) (r : Nibble) : u.getV r = s.getV r := by
  obtain ⟨_, ok⟩ | ⟨-, failed⟩ := pushReturn_cases a s
  · obtain rfl := Except.ok.inj (ok.symm.trans pushed)
    rfl
  · exact nomatch failed.symm.trans pushed

theorem popReturn_getV {s : State} {popped : Word × State} (ok : popReturn s = .ok popped) (r : Nibble) :
    popped.2.getV r = s.getV r := by
  obtain ⟨_, _, _, ok'⟩ | ⟨-, failed⟩ := popReturn_cases s
  · obtain rfl := Except.ok.inj (ok'.symm.trans ok)
    rfl
  · exact nomatch failed.symm.trans ok

/-- An instruction that may fault keeps a register when the state it computes does: a fault keeps them all
(60_exceptions.md R246). -/
theorem finish_map_getV {α : Type} {s t : State} {checked : Except Fault α} {result : α → State} {r : Nibble}
    (ran : finish s (checked.map result) = .next t) (kept : ∀ a, checked = .ok a → (result a).getV r = s.getV r) :
    t.getV r = s.getV r := by
  cases checked with
  | ok a =>
    obtain rfl := Host.Outcome.next.inj ran
    exact kept a rfl
  | error f =>
    obtain rfl := Host.Outcome.next.inj ran
    rfl

theorem execWaitKey_getV {x r : Nibble} {s t : State} (ran : execWaitKey x s = .next t) (other : r ≠ x) :
    t.getV r = s.getV r := by
  cases pressed : lowestKey s.key with
  | none =>
    obtain rfl := Host.Outcome.next.inj ((execWaitKey_of_none x pressed).symm.trans ran)
    rfl
  | some k =>
    obtain rfl := Host.Outcome.next.inj ((execWaitKey_of_some x pressed).symm.trans ran)
    exact s.setV_getV_of_ne _ other

/-! ### Every instruction -/

/-- Case by case over the instructions, in the groups the register column of 10_state.md's table makes: one destination; a
destination and the flag; no register; and those that may fault. -/
theorem exec_getV_of_not_mayWrite {i : Instr} {s t : State} {r : Nibble} (ran : exec i s = .next t)
    (kept : ¬ mayWrite i s (.reg r)) : t.getV r = s.getV r := by
  have other {x : Nibble} (named : destination i = some x) : r ≠ x := fun e => kept (.inl (e ▸ named))
  have notVf (flag : writesFlag i = true) : r ≠ vf := fun e => kept (.inr (.inl ⟨flag, e⟩))
  cases i with
  | loadImm x _ | addImm x _ | loadReg x _ | orReg x _ | andReg x _ | xorReg x _ | loadDelay x | randAnd x _ =>
    obtain rfl := Host.Outcome.next.inj ran
    exact State.setV_getV_of_ne _ _ (other rfl)
  | waitKey x => exact execWaitKey_getV ran (other rfl)
  | addReg x _ | subReg x _ | shiftRight x _ | subRegYx x _ | shiftLeft x _ =>
    obtain rfl := Host.Outcome.next.inj ran
    exact writeResultThenFlag_getV_other _ _ s (notVf rfl) (other rfl)
  | clearDisplay | jump _ | loadI _ | addI _ | fontAddr _ | loadSound _ | setDelay _ | unimplemented _ =>
    obtain rfl := Host.Outcome.next.inj ran
    rfl
  | skipEqImm _ _ | skipNeImm _ _ | skipEqReg _ _ | skipNeReg _ _ =>
    obtain rfl := Host.Outcome.next.inj ran
    exact skipIf_getV _ s r
  | skipKeyPressed x =>
    exact finish_map_getV ((execSkipKeyPressed_eq_finish x s).symm.trans ran) fun _ _ => skipIf_getV _ s r
  | skipKeyNotPressed x =>
    exact finish_map_getV ((execSkipKeyNotPressed_eq_finish x s).symm.trans ran) fun _ _ => skipIf_getV _ s r
  | ret => exact finish_map_getV ((execReturn_eq_finish s).symm.trans ran) fun _ popped => popReturn_getV popped r
  | call nnn => exact finish_map_getV ((execCall_eq_finish nnn s).symm.trans ran) fun _ pushed => pushReturn_getV pushed r
  | draw x y n =>
    exact finish_map_getV ((execDraw_eq_finish x y n s).symm.trans ran) fun _ _ => State.setV_getV_of_ne _ _ (notVf rfl)
  | bcd x => exact finish_map_getV ((execBcd_eq_finish x s).symm.trans ran) fun _ _ => rfl
  | storeRegs x => exact finish_map_getV ((execStoreRegs_eq_finish x s).symm.trans ran) fun _ _ => rfl
  | loadRegs x =>
    have above : ¬ r.toNat ≤ x.toNat := fun le => kept (.inr (.inr ⟨x, rfl, le⟩))
    refine finish_map_getV ((execLoadRegs_eq_finish x s).symm.trans ran) fun _ _ => ?_
    rw [regsFromMemory_getV, if_neg above]

/-- The three ways to write VF (41_alu.md R154); load-regs reaches it only with X = F, as no register lies above it. -/
theorem not_mayWrite_vf {i : Instr} {s : State} (noFlag : writesFlag i = false) (notDestination : destination i ≠ some vf)
    (notLast : i ≠ .loadRegs vf) : ¬ mayWrite i s (.reg vf) := by
  rintro (named | ⟨flag, -⟩ | ⟨x, rfl, reaches⟩)
  · exact notDestination named
  · exact Bool.false_ne_true (noFlag.symm.trans flag)
  · have last : x = vf := BitVec.eq_of_toNat_eq (Nat.le_antisymm (Nat.le_of_lt_succ x.isLt) reaches)
    exact notLast (congrArg Instr.loadRegs last)

/-- Settles O38: VF is a register such an instruction may not write. -/
theorem onlyFlagWritersTouchVf : Obligations.OnlyFlagWritersTouchVf := by
  intro i s t ran noFlag notDestination notLast
  exact exec_getV_of_not_mayWrite ran (not_mayWrite_vf noFlag notDestination notLast)

end Sys2Proof.Machine
end

section
/-! What the words of class A and of the index rows of class F decode to, written out from their fields (30_encoding.md R95). -/

namespace Sys2Proof

theorem decodeWord_loadI (nnn : Addr12) : decodeWord (formA 0xA#4 nnn) = .loadI nnn := by
  simp [decodeWord, formA_d1, formA_nnn]

/-- In class F the low byte alone selects the operation. -/
theorem decodeWord_formXI_classF (x : Nibble) (nn : Byte) : decodeWord (formXI 0xF#4 x nn) = decodeClassF (formXI 0xF#4 x nn) := by
  simp [decodeWord, formXI_d1]

theorem decodeWord_addI (x : Nibble) : decodeWord (formXI 0xF#4 x 0x1E#8) = .addI x := by
  simp [decodeWord_formXI_classF, decodeClassF, formXI_x, formXI_nn]

theorem decodeWord_fontAddr (x : Nibble) : decodeWord (formXI 0xF#4 x 0x29#8) = .fontAddr x := by
  simp [decodeWord_formXI_classF, decodeClassF, formXI_x, formXI_nn]

theorem decodeWord_bcd (x : Nibble) : decodeWord (formXI 0xF#4 x 0x33#8) = .bcd x := by
  simp [decodeWord_formXI_classF, decodeClassF, formXI_x, formXI_nn]

theorem decodeWord_storeRegs (x : Nibble) : decodeWord (formXI 0xF#4 x 0x55#8) = .storeRegs x := by
  simp [decodeWord_formXI_classF, decodeClassF, formXI_x, formXI_nn]

theorem decodeWord_loadRegs (x : Nibble) : decodeWord (formXI 0xF#4 x 0x65#8) = .loadRegs x := by
  simp [decodeWord_formXI_classF, decodeClassF, formXI_x, formXI_nn]

end Sys2Proof
end

section
/-! The instructions that write I (42_index_memory.md R170 to R172): each is one write of I, of a value given as a number. -/

namespace Sys2Proof.Machine

theorem zextByte_toNat (b : Byte) : (zextByte b).toNat = b.toNat :=
  BitVec.toNat_setWidth_of_le (by decide)

/-- I wraps at 16 bits (42_index_memory.md R171). -/
theorem add_zextByte_toNat (i : Word) (b : Byte) : (i + zextByte b).toNat = (i.toNat + b.toNat) % 65536 := by
  rw [BitVec.toNat_add, zextByte_toNat]

/-- Five times a byte stays below 65536, so no glyph address wraps (42_index_memory.md R172). -/
theorem glyphAddress_toNat (b : Byte) :
    (BitVec.ofNat 16 (Config.fontBase + Config.glyphBytes * b.toNat)).toNat = 5 * b.toNat := by
  have byte : b.toNat < 256 := b.isLt
  rw [BitVec.toNat_ofNat, Nat.zero_add]
  exact Nat.mod_eq_of_lt (by simp only [Config.glyphBytes]; omega)

/-- Settles O13: all three are one write of I, and none of them writes a flag. -/
theorem indexWritersWriteOnlyI : Obligations.IndexWritersWriteOnlyI := by
  refine ⟨fun nnn => ⟨decodeWord_loadI nnn, fun s => ?loadI⟩,
    fun x => ⟨decodeWord_addI x, decodeWord_fontAddr x, fun s => ⟨?addI, ?fontAddr⟩⟩⟩
  case loadI => exact ⟨_, rfl, zextAddr_toNat nnn, setI_frame s _⟩
  case addI => exact ⟨_, rfl, add_zextByte_toNat s.i (s.getV x), setI_frame s _⟩
  case fontAddr => exact ⟨_, rfl, glyphAddress_toNat (s.getV x), setI_frame s _⟩

end Sys2Proof.Machine
end

section
/-! The memory accesses through I (42_index_memory.md R173 to R177): each is a range check, then one move of bytes or the fault of
the check that failed. -/

namespace Sys2Proof.Machine

/-! ### The range checks, each outcome with the condition that gives it -/

theorem checkRead_of_le {i : Word} {n : Nat} (inside : i.toNat + n ≤ 4096) : checkRead i n = .ok () := by
  obtain ⟨-, passed⟩ | ⟨-, outside, -⟩ := checkRead_cases i n
  · exact passed
  · omega

theorem checkRead_of_gt {i : Word} {n : Nat} (nonempty : n ≠ 0) (outside : 4096 < i.toNat + n) :
    checkRead i n = .error (.memoryOutOfBounds (max i.toNat 4096)) := by
  obtain ⟨inside, -⟩ | ⟨-, -, failed⟩ := checkRead_cases i n
  · omega
  · exact failed

theorem checkWrite_of_inside {i : Word} {n : Nat} (nonempty : n ≠ 0) (aboveFont : 80 ≤ i.toNat) (inside : i.toNat + n ≤ 4096) :
    checkWrite i n = .ok () := by
  obtain ⟨-, -, passed⟩ | ⟨outside, -⟩ | ⟨inFont, -⟩ := checkWrite_cases i nonempty
  · exact passed
  · omega
  · omega

theorem checkWrite_of_outside {i : Word} {n : Nat} (nonempty : n ≠ 0) (outside : 4096 < i.toNat + n) :
    checkWrite i n = .error (.memoryOutOfBounds (max i.toNat 4096)) := by
  obtain ⟨-, inside, -⟩ | ⟨-, failed⟩ | ⟨-, inside, -⟩ := checkWrite_cases i nonempty
  · omega
  · exact failed
  · omega

theorem checkWrite_of_font {i : Word} {n : Nat} (nonempty : n ≠ 0) (inFont : i.toNat < 80) (inside : i.toNat + n ≤ 4096) :
    checkWrite i n = .error (.fontWriteViolation i.toNat) := by
  obtain ⟨aboveFont, -⟩ | ⟨outside, -⟩ | ⟨-, -, failed⟩ := checkWrite_cases i nonempty
  · omega
  · omega
  · exact failed

/-! ### What `finish` makes of a check -/

theorem finish_map_of_ok {α : Type} {checked : Except Fault α} {a : α} (passed : checked = .ok a) (s : State) (result : α → State) :
    finish s (checked.map result) = .next (result a) := by
  rw [passed]
  rfl

theorem finish_map_of_error {α : Type} {checked : Except Fault α} {f : Fault} (failed : checked = .error f) (s : State)
    (result : α → State) : finish s (checked.map result) = .next (raise f s) := by
  rw [failed]
  rfl

/-! ### Stores -/

/-- The three stored bytes read back as the hundreds, tens and ones of the byte they came from (42_index_memory.md R173). -/
theorem read_writeRange_bcdDigits {m : Memory} (canonical : m.wf) {a : Nat} (inside : a + 3 ≤ 4096) (b : Byte) :
    ((m.writeRange a (bcdDigits b)).read a).toNat = b.toNat / 100 ∧
    ((m.writeRange a (bcdDigits b)).read (a + 1)).toNat = b.toNat / 10 % 10 ∧
    ((m.writeRange a (bcdDigits b)).read (a + 2)).toNat = b.toNat % 10 := by
  have byte : b.toNat < 256 := b.isLt
  have stored (k : Nat) (lt : k < 3) : (m.writeRange a (bcdDigits b)).read (a + k) = (bcdDigits b)[k]'lt :=
    Memory.read_writeRange_same (bcdDigits b) canonical lt inside
  refine ⟨(congrArg BitVec.toNat (stored 0 (by decide))).trans (Nat.mod_eq_of_lt ?_),
    (congrArg BitVec.toNat (stored 1 (by decide))).trans (Nat.mod_eq_of_lt ?_),
    (congrArg BitVec.toNat (stored 2 (by decide))).trans (Nat.mod_eq_of_lt ?_)⟩ <;> omega

/-- Settles O14: the write check decides between the store of the three digits and the two faults. -/
theorem bcdStoresThreeDigitsOrFaults : Obligations.BcdStoresThreeDigitsOrFaults := by
  intro x
  refine ⟨decodeWord_bcd x, fun s => ⟨?stores, ?outOfBounds, ?intoFont⟩⟩
  case stores =>
    intro aboveFont inside
    have passed : checkWrite s.i 3 = .ok () := checkWrite_of_inside (by decide) aboveFont (by omega)
    exact ⟨_, (execBcd_eq_finish x s).trans (finish_map_of_ok passed s _),
      fun canonical => read_writeRange_bcdDigits canonical (by omega) (s.getV x), writeRange_frame s _ (bcdDigits (s.getV x))⟩
  case outOfBounds =>
    intro outside
    exact (execBcd_eq_finish x s).trans (finish_map_of_error (checkWrite_of_outside (by decide) (by omega)) s _)
  case intoFont =>
    intro inFont
    exact (execBcd_eq_finish x s).trans (finish_map_of_error (checkWrite_of_font (by decide) inFont (by omega)) s _)

/-- Each stored byte reads back as the register it came from (42_index_memory.md R174). -/
theorem read_writeRange_regsUpTo {s : State} (canonical : s.mem.wf) {x k : Nibble} {a : Nat} (inside : a + x.toNat < 4096)
    (le : k.toNat ≤ x.toNat) : (s.mem.writeRange a (regsUpTo s x)).read (a + k.toNat) = s.getV k := by
  have listed : k.toNat < (regsUpTo s x).length := by rw [length_regsUpTo]; omega
  have fits : a + (regsUpTo s x).length ≤ Config.memSize := by rw [length_regsUpTo]; exact inside
  rw [Memory.read_writeRange_same _ canonical listed fits, getElem_regsUpTo]

/-- A store of V[0] to V[X] changes no byte outside its range and nothing else. -/
theorem writeRange_regsUpTo_frame (s : State) (a : Nat) (x : Nibble) :
    unchangedBut (fun p => ∃ k ≤ x.toNat, p = .memByte (a + k)) s (s.setMem (s.mem.writeRange a (regsUpTo s x))) :=
  (writeRange_frame s a (regsUpTo s x)).mono fun _ ⟨k, listed, place⟩ =>
    ⟨k, Nat.le_of_lt_succ (listed.trans_eq (length_regsUpTo s x)), place⟩

/-- Settles O15: the write check decides between the store of V[0] to V[X] and the two faults. -/
theorem storeRegsStoresTheRegistersOrFaults : Obligations.StoreRegsStoresTheRegistersOrFaults := by
  intro x
  have nonempty : x.toNat + 1 ≠ 0 := Nat.succ_ne_zero _
  refine ⟨decodeWord_storeRegs x, fun s => ⟨?stores, ?outOfBounds, ?intoFont⟩⟩
  case stores =>
    intro aboveFont inside
    have passed : checkWrite s.i (x.toNat + 1) = .ok () := checkWrite_of_inside nonempty aboveFont (by omega)
    exact ⟨_, (execStoreRegs_eq_finish x s).trans (finish_map_of_ok passed s _),
      fun canonical _ le => read_writeRange_regsUpTo canonical (by omega) le, writeRange_regsUpTo_frame s _ x⟩
  case outOfBounds =>
    intro outside
    exact (execStoreRegs_eq_finish x s).trans (finish_map_of_error (checkWrite_of_outside nonempty (by omega)) s _)
  case intoFont =>
    intro inFont
    have lastReg : x.toNat < 16 := x.isLt
    exact (execStoreRegs_eq_finish x s).trans (finish_map_of_error (checkWrite_of_font nonempty inFont (by omega)) s _)

/-! ### Loads -/

/-- Settles O16: the read check decides between the load of V[0] to V[X] and the fault. -/
theorem loadRegsLoadsTheRegistersOrFaults : Obligations.LoadRegsLoadsTheRegistersOrFaults := by
  intro x
  refine ⟨decodeWord_loadRegs x, fun s => ⟨?loads, ?outOfBounds⟩⟩
  case loads =>
    intro inside
    have passed : checkRead s.i (x.toNat + 1) = .ok () := checkRead_of_le (by omega)
    exact ⟨_, (execLoadRegs_eq_finish x s).trans (finish_map_of_ok passed s _),
      fun k le => (regsFromMemory_getV s x k).trans (if_pos le), regsFromMemory_frame s x⟩
  case outOfBounds =>
    intro outside
    exact (execLoadRegs_eq_finish x s).trans (finish_map_of_error (checkRead_of_gt (Nat.succ_ne_zero _) (by omega)) s _)

end Sys2Proof.Machine
end

section
/-! Clear-display and draw (43_display.md R190, R192): the state each leaves, and for draw the read check that decides between that
state and the fault. -/

namespace Sys2Proof

theorem decodeWord_draw (x y n : Nibble) : decodeWord (formXYN 0xD#4 x y n) = .draw x y n := by
  simp [decodeWord, formXYN_d1, formXYN_x, formXYN_y, formXYN_n]

end Sys2Proof

namespace Sys2Proof.Machine

/-- Settles O1: clear-display is one write of the framebuffer, of the blank screen. -/
theorem clearDisplayTurnsEveryPixelOff : Obligations.ClearDisplayTurnsEveryPixelOff :=
  ⟨by decide, fun s => ⟨_, rfl, blankScreen_pixel, setFb_frame s blankScreen⟩⟩

/-! ### The state a completed draw leaves -/

/-- The state `draw x y n` leaves where its sprite lies in memory: first the pixels, then the flag (43_display.md R192). -/
def afterDraw (x y n : Nibble) (s : State) : State :=
  let drawn := drawRows (s.getV x) (s.getV y) 0 (spriteRows s n) (s.fb, false)
  (s.setFb drawn.1).setV vf (flagByte drawn.2)

theorem afterDraw_pixel_covered {s : State} {x y n : Nibble} {c : Fin 64} {r : Fin 32} (covered : spriteCovers s x y n c r) :
    (afterDraw x y n s).fb.pixel c r = !s.fb.pixel c r :=
  drawRows_pixel_covered covered

theorem afterDraw_pixel_other {s : State} {x y n : Nibble} {c : Fin 64} {r : Fin 32} (other : ¬ spriteCovers s x y n c r) :
    (afterDraw x y n s).fb.pixel c r = s.fb.pixel c r :=
  drawRows_pixel_other other

theorem afterDraw_vf_of_collision {s : State} {x y n : Nibble}
    (collides : ∃ c r, spriteCovers s x y n c r ∧ s.fb.pixel c r = true) : (afterDraw x y n s).getV vf = 0x01#8 := by
  rw [afterDraw, State.setV_getV_self, (drawRows_collision s x y n).mpr collides]
  rfl

theorem afterDraw_vf_of_no_collision {s : State} {x y n : Nibble}
    (clear : ∀ c r, spriteCovers s x y n c r → s.fb.pixel c r = false) : (afterDraw x y n s).getV vf = 0x00#8 := by
  have noCollision : ¬ ∃ c r, spriteCovers s x y n c r ∧ s.fb.pixel c r = true := by
    rintro ⟨c, r, covered, on⟩
    exact Bool.false_ne_true ((clear c r covered).symm.trans on)
  rw [afterDraw, State.setV_getV_self, eq_false_of_ne_true (mt (drawRows_collision s x y n).mp noCollision)]
  rfl

/-- A draw writes pixels and VF and nothing else. -/
theorem afterDraw_frame (x y n : Nibble) (s : State) :
    unchangedBut (fun p => p = .reg vf ∨ ∃ c r, p = .pixel c r) s (afterDraw x y n s) :=
  .trans ((setFb_frame s _).mono fun _ => .inr) ((setV_frame _ vf _).mono fun _ => .inl)

/-! ### Which of the two a draw does -/

/-- A sprite of no rows is never outside memory, wherever I points (43_display.md R192). -/
theorem exec_draw_of_inside {s : State} (x y : Nibble) {n : Nibble} (inside : n.toNat = 0 ∨ s.i.toNat + n.toNat ≤ 4096) :
    exec (.draw x y n) s = .next (afterDraw x y n s) := by
  obtain ⟨-, passed⟩ | ⟨nonempty, outside, -⟩ := checkRead_cases s.i n.toNat
  · exact (execDraw_eq_finish x y n s).trans (finish_map_of_ok passed s _)
  · omega

theorem exec_draw_of_outside {s : State} (x y : Nibble) {n : Nibble} (nonempty : n.toNat ≠ 0)
    (outside : 4096 < s.i.toNat + n.toNat) : exec (.draw x y n) s = .next (raise (.memoryOutOfBounds (max s.i.toNat 4096)) s) :=
  (execDraw_eq_finish x y n s).trans (finish_map_of_error (checkRead_of_gt nonempty outside) s _)

/-- Settles O17: the read check decides between the state with the sprite drawn and the fault. -/
theorem drawFlipsItsPixelsAndFlagsCollisions : Obligations.DrawFlipsItsPixelsAndFlagsCollisions := by
  intro x y n
  refine ⟨decodeWord_draw x y n, fun s => ⟨?draws, ?outOfBounds⟩⟩
  case draws =>
    intro inside
    exact ⟨afterDraw x y n s, exec_draw_of_inside x y (by omega), fun _ _ => ⟨afterDraw_pixel_covered, afterDraw_pixel_other⟩,
      afterDraw_vf_of_collision, afterDraw_vf_of_no_collision, afterDraw_frame x y n s⟩
  case outOfBounds =>
    intro nonempty outside
    exact exec_draw_of_outside x y (by omega) (by omega)

end Sys2Proof.Machine
end

section
/-! What the words of class E and of the key and timer rows of class F decode to, written out from their fields
(30_encoding.md R95). -/

namespace Sys2Proof

/-- In class E the low byte alone selects the operation. -/
theorem decodeWord_formXI_classE (x : Nibble) (nn : Byte) : decodeWord (formXI 0xE#4 x nn) = decodeClassE (formXI 0xE#4 x nn) := by
  simp [decodeWord, formXI_d1]

theorem decodeWord_skipKeyPressed (x : Nibble) : decodeWord (formXI 0xE#4 x 0x9E#8) = .skipKeyPressed x := by
  simp [decodeWord_formXI_classE, decodeClassE, formXI_x, formXI_nn]

theorem decodeWord_skipKeyNotPressed (x : Nibble) : decodeWord (formXI 0xE#4 x 0xA1#8) = .skipKeyNotPressed x := by
  simp [decodeWord_formXI_classE, decodeClassE, formXI_x, formXI_nn]

theorem decodeWord_waitKey (x : Nibble) : decodeWord (formXI 0xF#4 x 0x0A#8) = .waitKey x := by
  simp [decodeWord_formXI_classF, decodeClassF, formXI_x, formXI_nn]

theorem decodeWord_loadDelay (x : Nibble) : decodeWord (formXI 0xF#4 x 0x07#8) = .loadDelay x := by
  simp [decodeWord_formXI_classF, decodeClassF, formXI_x, formXI_nn]

theorem decodeWord_setDelay (x : Nibble) : decodeWord (formXI 0xF#4 x 0x15#8) = .setDelay x := by
  simp [decodeWord_formXI_classF, decodeClassF, formXI_x, formXI_nn]

theorem decodeWord_loadSound (x : Nibble) : decodeWord (formXI 0xF#4 x 0x18#8) = .loadSound x := by
  simp [decodeWord_formXI_classF, decodeClassF, formXI_x, formXI_nn]

end Sys2Proof
end

section
/-! Keypad input and the timer moves (44_input_timers.md R210 to R215): the key index and the lowest key, each outcome with the
condition that gives it, then the instructions. -/

namespace Sys2Proof.Machine

/-! ### The key skips -/

theorem keyIndex_of_toNat_eq {b : Byte} {k : Fin 16} (index : b.toNat = k.val) : keyIndex b = .ok k := by
  obtain ⟨inRange, ok⟩ | ⟨outOfRange, -⟩ := keyIndex_cases b
  · exact ok.trans (congrArg Except.ok (Fin.ext index))
  · omega

theorem keyIndex_of_ge {b : Byte} (outOfRange : 16 ≤ b.toNat) : keyIndex b = .error (.keyIndexOutOfRange b) := by
  obtain ⟨inRange, -⟩ | ⟨-, failed⟩ := keyIndex_cases b
  · omega
  · exact failed

theorem skipIf_not_pc (c : Bool) (s : State) : (skipIf (!c) s).pc = if c then s.pc else s.pc + 2 := by
  cases c <;> rfl

/-- Settles O18: the key index decides between `skipIf` on the level of that key and the fault. -/
theorem keySkipsTestTheKeyOrFault : Obligations.KeySkipsTestTheKeyOrFault := by
  intro x
  refine ⟨decodeWord_skipKeyPressed x, decodeWord_skipKeyNotPressed x, fun s => ⟨?tests, ?faults⟩⟩
  case tests =>
    intro k index
    have named : keyIndex (s.getV x) = .ok k := keyIndex_of_toNat_eq index
    exact ⟨⟨_, (execSkipKeyPressed_eq_finish x s).trans (finish_map_of_ok named s _), skipIf_pc _ s, skipIf_frame _ s⟩,
      ⟨_, (execSkipKeyNotPressed_eq_finish x s).trans (finish_map_of_ok named s _), skipIf_not_pc _ s, skipIf_frame _ s⟩⟩
  case faults =>
    intro outOfRange
    have failed : keyIndex (s.getV x) = .error (.keyIndexOutOfRange (s.getV x)) := keyIndex_of_ge outOfRange
    exact ⟨(execSkipKeyPressed_eq_finish x s).trans (finish_map_of_error failed s _),
      (execSkipKeyNotPressed_eq_finish x s).trans (finish_map_of_error failed s _)⟩

/-! ### wait-key -/

theorem lowestKey_of_none_pressed {key : Vector Bool 16} (idle : ∀ k : Fin 16, key[k.val] = false) : lowestKey key = none := by
  obtain ⟨notFound, -⟩ | ⟨k, -, pressed, -⟩ := lowestKey_cases key
  · exact notFound
  · exact absurd ((idle k).symm.trans pressed) Bool.false_ne_true

/-- A pressed key with none pressed below it is the one found: of two such keys neither lies below the other. -/
theorem lowestKey_of_lowest {key : Vector Bool 16} {k : Fin 16} (pressed : key[k.val] = true)
    (lowest : ∀ j : Fin 16, j < k → key[j.val] = false) : lowestKey key = some k := by
  obtain ⟨-, idle⟩ | ⟨j, found, pressed', lowest'⟩ := lowestKey_cases key
  · exact absurd ((idle k).symm.trans pressed) Bool.false_ne_true
  · have notBelow : ¬ j < k := fun below => Bool.false_ne_true ((lowest j below).symm.trans pressed')
    have notAbove : ¬ k < j := fun above => Bool.false_ne_true ((lowest' k above).symm.trans pressed)
    rw [found, le_antisymm (not_lt.mp notAbove) (not_lt.mp notBelow)]

/-- A key index fits in a register (44_input_timers.md R212). -/
theorem keyByte_toNat (k : Fin 16) : (BitVec.ofNat 8 k.val).toNat = k.val :=
  (BitVec.toNat_ofNat k.val 8).trans (Nat.mod_eq_of_lt (k.isLt.trans (by decide)))

/-- Settles O19: the lowest pressed key, or that there is none, decides between the write of V[X] and the rewind. -/
theorem waitKeyTakesTheLowestKeyOrRewinds : Obligations.WaitKeyTakesTheLowestKeyOrRewinds := by
  intro x
  refine ⟨decodeWord_waitKey x, fun s => ⟨?rewinds, ?takes⟩⟩
  case rewinds =>
    intro idle
    exact execWaitKey_of_none x (lowestKey_of_none_pressed idle)
  case takes =>
    intro k pressed lowest
    refine ⟨_, execWaitKey_of_some x (lowestKey_of_lowest pressed lowest), ?value, setV_frame s x _⟩
    rw [State.setV_getV_self, keyByte_toNat]

/-! ### The timer moves -/

/-- Settles O20: each is one write, of V[X], DT or ST, so no timer is decremented. -/
theorem timerMovesCopyOneByte : Obligations.TimerMovesCopyOneByte := by
  intro x
  refine ⟨decodeWord_loadDelay x, decodeWord_setDelay x, decodeWord_loadSound x, fun s => ⟨?loadDelay, ?setDelay, ?loadSound⟩⟩
  case loadDelay => exact ⟨_, rfl, s.setV_getV_self x s.dt, setV_frame s x _⟩
  case setDelay => exact ⟨_, rfl, rfl, setDt_frame s _⟩
  case loadSound => exact ⟨_, rfl, rfl, setSt_frame s _⟩

end Sys2Proof.Machine
end

section
/-! Encoding undoes decoding, class by class: the class nibble, and where the decoder looks further the low nibble or low byte, are
those of the instruction found (30_encoding.md R95, R99). -/

namespace Sys2Proof

/-! ### A word rebuilt from its operand fields and the constants its row fixes -/

theorem formA_of_class {op : Word} {c : Nibble} (cls : (fieldD1 op).toNat = c.toNat) : formA c (fieldNNN op) = op := by
  rw [← BitVec.eq_of_toNat_eq cls]
  exact (word_eq_formA op).symm

theorem formXI_of_class {op : Word} {c : Nibble} (cls : (fieldD1 op).toNat = c.toNat) :
    formXI c (fieldX op) (fieldNN op) = op := by
  rw [← BitVec.eq_of_toNat_eq cls]
  exact (word_eq_formXI op).symm

theorem formXI_of_class_low {op : Word} {c : Nibble} {nn : Byte} (cls : (fieldD1 op).toNat = c.toNat)
    (low : (fieldNN op).toNat = nn.toNat) : formXI c (fieldX op) nn = op := by
  rw [← BitVec.eq_of_toNat_eq low]
  exact formXI_of_class cls

theorem formXYN_of_class {op : Word} {c : Nibble} (cls : (fieldD1 op).toNat = c.toNat) :
    formXYN c (fieldX op) (fieldY op) (fieldN op) = op := by
  rw [← BitVec.eq_of_toNat_eq cls]
  exact (word_eq_formXYN op).symm

theorem formXYN_of_class_low {op : Word} {c n : Nibble} (cls : (fieldD1 op).toNat = c.toNat)
    (low : (fieldN op).toNat = n.toNat) : formXYN c (fieldX op) (fieldY op) n = op := by
  rw [← BitVec.eq_of_toNat_eq low]
  exact formXYN_of_class cls

/-! ### The classes that look past the class nibble -/

theorem encode_decodeClass0 (op : Word) : encode (decodeClass0 op) = op := by
  unfold decodeClass0
  split
  case isTrue clear => exact clear.symm
  case isFalse =>
    split
    case isTrue ret => exact ret.symm
    case isFalse => rfl

/-- Classes 5 and 9 have a row for the low nibble 0 alone. -/
theorem encode_ite_low_zero {op : Word} {i : Instr} (row : (fieldN op).toNat = (0x0#4).toNat → encode i = op) :
    encode (if fieldN op = 0x0#4 then i else .unimplemented op) = op := by
  split
  case isTrue zero => exact row (congrArg BitVec.toNat zero)
  case isFalse => rfl

theorem encode_decodeClass8 {op : Word} (cls : (fieldD1 op).toNat = (0x8#4).toNat) : encode (decodeClass8 op) = op := by
  unfold decodeClass8
  split
  case h_10 => rfl
  all_goals
    rename_i low
    exact formXYN_of_class_low cls low

theorem encode_decodeClassE {op : Word} (cls : (fieldD1 op).toNat = (0xE#4).toNat) : encode (decodeClassE op) = op := by
  unfold decodeClassE
  split
  case h_3 => rfl
  all_goals
    rename_i low
    exact formXI_of_class_low cls low

theorem encode_decodeClassF {op : Word} (cls : (fieldD1 op).toNat = (0xF#4).toNat) : encode (decodeClassF op) = op := by
  unfold decodeClassF
  split
  case h_10 => rfl
  all_goals
    rename_i low
    exact formXI_of_class_low cls low

/-- No bit of a word is lost in decoding (30_encoding.md R98, R100). -/
theorem encode_decodeWord (op : Word) : encode (decodeWord op) = op := by
  unfold decodeWord
  split
  case h_1 => exact encode_decodeClass0 op
  case h_2 cls => exact formA_of_class cls
  case h_3 cls => exact formA_of_class cls
  case h_4 cls => exact formXI_of_class cls
  case h_5 cls => exact formXI_of_class cls
  case h_6 cls => exact encode_ite_low_zero (formXYN_of_class_low cls)
  case h_7 cls => exact formXI_of_class cls
  case h_8 cls => exact formXI_of_class cls
  case h_9 cls => exact encode_decodeClass8 cls
  case h_10 cls => exact encode_ite_low_zero (formXYN_of_class_low cls)
  case h_11 cls => exact formA_of_class cls
  case h_12 cls => exact formXI_of_class cls
  case h_13 cls => exact formXYN_of_class cls
  case h_14 cls => exact encode_decodeClassE cls
  case h_15 cls => exact encode_decodeClassF cls
  case h_16 => rfl

end Sys2Proof
end

section
/-! Every instruction but `unimplemented` has a row of the opcode map, and its word matches that row (30_encoding.md R95, R98). -/

namespace Sys2Proof.Laws.RowPattern

theorem statement_holds : (i : Instr) → Statement i
  | .clearDisplay => clearDisplay
  | .ret => ret
  | .jump nnn => jump nnn
  | .call nnn => call nnn
  | .skipEqImm x nn => skipEqImm x nn
  | .skipNeImm x nn => skipNeImm x nn
  | .skipEqReg x y => skipEqReg x y
  | .loadImm x nn => loadImm x nn
  | .addImm x nn => addImm x nn
  | .loadReg x y => loadReg x y
  | .orReg x y => orReg x y
  | .andReg x y => andReg x y
  | .xorReg x y => xorReg x y
  | .addReg x y => addReg x y
  | .subReg x y => subReg x y
  | .shiftRight x y => shiftRight x y
  | .subRegYx x y => subRegYx x y
  | .shiftLeft x y => shiftLeft x y
  | .skipNeReg x y => skipNeReg x y
  | .loadI nnn => loadI nnn
  | .randAnd x nn => randAnd x nn
  | .draw x y n => draw x y n
  | .skipKeyPressed x => skipKeyPressed x
  | .skipKeyNotPressed x => skipKeyNotPressed x
  | .waitKey x => waitKey x
  | .loadDelay x => loadDelay x
  | .loadSound x => loadSound x
  | .setDelay x => setDelay x
  | .addI x => addI x
  | .fontAddr x => fontAddr x
  | .bcd x => bcd x
  | .storeRegs x => storeRegs x
  | .loadRegs x => loadRegs x
  | .unimplemented op => unimplemented op

end Sys2Proof.Laws.RowPattern

namespace Sys2Proof

theorem unimplemented_or_exists_row (i : Instr) :
    (∃ op, i = .unimplemented op) ∨ ∃ r ∈ opcodeRows, r.mnemonic = mnemonicOf i := by
  cases i with
  | unimplemented op => exact .inl ⟨op, rfl⟩
  | _ =>
    right
    simp only [mnemonicOf]
    decide

/-- The row of a decoded instruction matches the word it was decoded from. -/
theorem rowMatches_of_mnemonic_decodeWord {r : OpcodeRow} {op : Word} (row : r ∈ opcodeRows)
    (named : r.mnemonic = mnemonicOf (decodeWord op)) : rowMatches r op = true := by
  have ofEncoding : rowMatches r (encode (decodeWord op)) = true := Laws.RowPattern.statement_holds (decodeWord op) r row named
  rwa [encode_decodeWord] at ofEncoding

theorem decodeWord_of_no_row {op : Word} (noRow : ∀ r ∈ opcodeRows, rowMatches r op = false) :
    decodeWord op = .unimplemented op := by
  obtain ⟨w, decoded⟩ | ⟨r, row, named⟩ := unimplemented_or_exists_row (decodeWord op)
  · have sameWord : encode (.unimplemented w) = op := decoded ▸ encode_decodeWord op
    exact decoded.trans (congrArg Instr.unimplemented sameWord)
  · exact absurd ((noRow r row).symm.trans (rowMatches_of_mnemonic_decodeWord row named)) Bool.false_ne_true

end Sys2Proof

namespace Sys2Proof.Machine

/-- Settles O21: the decoder finds an instruction with a row only in a word of that row, and the fallback is one report. -/
theorem unimplementedWordsAreReportedOnly : Obligations.UnimplementedWordsAreReportedOnly := by
  intro op
  exact ⟨decodeWord_of_no_row, fun s => ⟨_, rfl, report_reports op s, report_frame op s⟩⟩

end Sys2Proof.Machine
end

section
/-! Which fault an instruction and a step take (60_exceptions.md R240, R245, R246): each check gives exactly the condition of the
fault table, an instruction is its check and then a state with the FAULT it started with, and a step is the fetch's check and then
the instruction. -/

namespace Sys2Proof.Machine

/-! ### The checks against the fault table -/

/-- The fault a check gives, if it fails. -/
def checkFault {α : Type} : Except Fault α → Option Fault
  | .ok _ => none
  | .error f => some f

theorem checkFault_pushReturn (a : Word) (s : State) :
    checkFault (pushReturn a s) = if s.sp.val = 16 then some (.stackOverflow (pcInsn s)) else none := by
  obtain ⟨room, pushed⟩ | ⟨full, failed⟩ := pushReturn_cases a s
  · rw [pushed, checkFault, if_neg (Nat.ne_of_lt room)]
  · rw [failed, checkFault, if_pos full]

theorem checkFault_popReturn (s : State) :
    checkFault (popReturn s) = if s.sp.val = 0 then some (.stackUnderflow (pcInsn s)) else none := by
  obtain ⟨nonempty, _, _, popped⟩ | ⟨empty, failed⟩ := popReturn_cases s
  · rw [popped, checkFault, if_neg (Nat.ne_of_gt nonempty)]
  · rw [failed, checkFault, if_pos empty]

theorem checkFault_keyIndex (b : Byte) :
    checkFault (keyIndex b) = if 16 ≤ b.toNat then some (.keyIndexOutOfRange b) else none := by
  obtain ⟨key, passed⟩ | ⟨outOfRange, failed⟩ := keyIndex_cases b
  · rw [passed, checkFault, if_neg (Nat.not_le_of_lt key)]
  · rw [failed, checkFault, if_pos outOfRange]

/-- A range leaves memory exactly when its last address does; an empty range has none. -/
theorem rangeLeavesMemory_iff (i : Word) (n : Nat) : rangeLeavesMemory i n ↔ n ≠ 0 ∧ 4096 < i.toNat + n := by
  constructor
  · rintro ⟨k, inRange, outside⟩
    omega
  · rintro ⟨nonempty, outside⟩
    exact ⟨n - 1, by omega, by omega⟩

theorem checkFault_checkRead (i : Word) (n : Nat) : checkFault (checkRead i n) = readRangeFault i n := by
  simp only [readRangeFault, rangeLeavesMemory_iff]
  obtain ⟨inside, passed⟩ | ⟨nonempty, outside, failed⟩ := checkRead_cases i n
  · rw [passed, checkFault, if_neg (by omega)]
  · rw [failed, checkFault, if_pos ⟨nonempty, outside⟩]

theorem checkFault_checkWrite (i : Word) {n : Nat} (nonempty : n ≠ 0) : checkFault (checkWrite i n) = writeRangeFault i n := by
  simp only [writeRangeFault, rangeLeavesMemory_iff]
  obtain ⟨aboveFont, inside, passed⟩ | ⟨outside, failed⟩ | ⟨inFont, inside, failed⟩ := checkWrite_cases i nonempty
  · rw [passed, checkFault, if_neg (by omega), if_neg (by omega)]
  · rw [failed, checkFault, if_pos ⟨nonempty, outside⟩]
  · rw [failed, checkFault, if_neg (by omega), if_pos inFont]

/-! ### Instructions -/

/-- What an instruction run on `s` answers when the fault table gives it `expected`: that fault, taken on `s`, or a state whose
FAULT is still that of `s`. -/
inductive TakesExactly (s : State) : Option Fault → Result → Prop where
  | fault (f : Fault) : TakesExactly s (some f) (.next (raise f s))
  | completes {t : State} (kept : t.fault = s.fault) : TakesExactly s none (.next t)

theorem takesExactly_of_eq_finish {α : Type} {s : State} {r : Result} {checked : Except Fault α} {result : α → State}
    {expected : Option Fault} (shape : r = finish s (checked.map result)) (table : checkFault checked = expected)
    (kept : ∀ a, checked = .ok a → (result a).fault = s.fault) : TakesExactly s expected r := by
  subst shape table
  cases checked with
  | ok a => exact .completes (kept a rfl)
  | error f => exact .fault f

theorem skipIf_fault (c : Bool) (s : State) : (skipIf c s).fault = s.fault := by
  cases c <;> rfl

theorem pushReturn_fault {a : Word} {s u : State} (pushed : pushReturn a s = .ok u) : u.fault = s.fault := by
  obtain ⟨_, ok⟩ | ⟨-, failed⟩ := pushReturn_cases a s
  · obtain rfl := Except.ok.inj (ok.symm.trans pushed)
    rfl
  · exact nomatch failed.symm.trans pushed

theorem popReturn_fault {s : State} {popped : Word × State} (ok : popReturn s = .ok popped) : popped.2.fault = s.fault := by
  obtain ⟨_, _, _, ok'⟩ | ⟨-, failed⟩ := popReturn_cases s
  · obtain rfl := Except.ok.inj (ok'.symm.trans ok)
    rfl
  · exact nomatch failed.symm.trans ok

/-- wait-key takes no fault: with no key pressed its step completes too (44_input_timers.md R212). -/
theorem execWaitKey_takesExactly (x : Nibble) (s : State) : TakesExactly s none (execWaitKey x s) := by
  cases pressed : lowestKey s.key with
  | none =>
    rw [execWaitKey_of_none x pressed]
    exact .completes rfl
  | some k =>
    rw [execWaitKey_of_some x pressed]
    exact .completes rfl

/-- Case by case over the instructions: those the fault table names are `finish` of the check that raises its fault, and the others
answer a state whose update leaves FAULT alone. -/
theorem exec_takesExactly (i : Instr) (s : State) : TakesExactly s (instrFault i (pcInsn s) s) (exec i s) := by
  cases i with
  | ret =>
    exact takesExactly_of_eq_finish (execReturn_eq_finish s) (checkFault_popReturn s) fun _ popped =>
      (State.setPc_fault _ _).trans (popReturn_fault popped)
  | call nnn =>
    exact takesExactly_of_eq_finish (execCall_eq_finish nnn s) (checkFault_pushReturn s.pc s) fun _ pushed =>
      (State.setPc_fault _ _).trans (pushReturn_fault pushed)
  | skipKeyPressed x =>
    exact takesExactly_of_eq_finish (execSkipKeyPressed_eq_finish x s) (checkFault_keyIndex _) fun _ _ => skipIf_fault _ s
  | skipKeyNotPressed x =>
    exact takesExactly_of_eq_finish (execSkipKeyNotPressed_eq_finish x s) (checkFault_keyIndex _) fun _ _ => skipIf_fault _ s
  | draw x y n => exact takesExactly_of_eq_finish (execDraw_eq_finish x y n s) (checkFault_checkRead s.i _) fun _ _ => rfl
  | bcd x => exact takesExactly_of_eq_finish (execBcd_eq_finish x s) (checkFault_checkWrite s.i (by decide)) fun _ _ => rfl
  | storeRegs x =>
    exact takesExactly_of_eq_finish (execStoreRegs_eq_finish x s) (checkFault_checkWrite s.i (Nat.succ_ne_zero _)) fun _ _ => rfl
  | loadRegs x => exact takesExactly_of_eq_finish (execLoadRegs_eq_finish x s) (checkFault_checkRead s.i _) fun _ _ => rfl
  | waitKey x => exact execWaitKey_takesExactly x s
  | skipEqImm _ _ | skipNeImm _ _ | skipEqReg _ _ | skipNeReg _ _ => exact .completes (skipIf_fault _ s)
  | _ => exact .completes rfl

/-! ### Steps -/

/-- The fetch's advance changes PC, and the fault table takes the address of the instruction apart from the state. -/
theorem instrFault_advancePc (i : Instr) (address : Word) (s : State) :
    instrFault i address (advancePc s) = instrFault i address s := by
  cases i <;> rfl

theorem exec_advancePc_takesExactly (i : Instr) (s : State) :
    TakesExactly (advancePc s) (instrFault i s.pc s) (exec i (advancePc s)) := by
  have onAdvanced := exec_takesExactly i (advancePc s)
  rwa [pcInsn_advancePc, instrFault_advancePc] at onAdvanced

/-- What a step of a running core does about faults: it takes the one the table gives, with no other change, or takes none. -/
theorem step_of_running {s : State} (running : s.fault = none) :
    (∃ f, stepFault s = some f ∧ step s = .next (enterFault f s)) ∨
    (stepFault s = none ∧ ∃ t, step s = .next t ∧ t.fault = none) := by
  obtain ⟨inMemory, -⟩ | ⟨outside, failed⟩ := fetch_cases s
  · have table : stepFault s = instrFault (decodeWord (fetch16 s.mem s.pc.toNat)) s.pc s := if_neg (Nat.not_lt_of_le inMemory)
    have taken := exec_advancePc_takesExactly (decodeWord (fetch16 s.mem s.pc.toNat)) s
    rw [← table, ← step_of_fetch running (Nat.le_of_succ_le_succ inMemory)] at taken
    generalize stepFault s = expected, step s = answer at taken ⊢
    cases taken with
    | fault f => exact .inl ⟨f, rfl, congrArg Host.Outcome.next (raise_advancePc f s)⟩
    | completes kept => exact .inr ⟨rfl, _, rfl, kept.trans running⟩
  · exact .inl ⟨_, if_pos outside, step_of_fetch_error running failed⟩

/-- Settles O29: the codes are the definition's own, and a step writes into FAULT what the table gives, or leaves it empty where the
table gives nothing. -/
theorem stepRaisesExactlyTheTablesFault : Obligations.StepRaisesExactlyTheTablesFault := by
  refine ⟨fun _ _ _ => ⟨rfl, rfl, rfl, rfl, rfl, rfl⟩, fun s running => ?_⟩
  obtain ⟨f, table, taken⟩ | ⟨table, t, completed, clear⟩ := step_of_running running
  · exact ⟨_, taken, table.symm⟩
  · exact ⟨t, completed, clear.trans table.symm⟩

end Sys2Proof.Machine
end

section
/-! The host's side of a fault (60_exceptions.md R246, R247): the failure of the step that takes it, and what a halted core answers
to each transaction. -/

namespace Sys2Proof.Machine

theorem stepTransaction_of_faulted {s t : State} {f : Fault} (ran : step s = .next t) (faulted : t.fault = some f) :
    stepTransaction s = (t, .failure f) := by
  simp only [stepTransaction, ran, faulted]

/-- Settles O30: a step that takes no fault leaves FAULT empty, so one after which it is set took that fault, on the state it
started in. -/
theorem faultsArePrecise : Obligations.FaultsArePrecise := by
  intro s t f running ran faulted
  refine ⟨?onlyFault, stepTransaction_of_faulted ran faulted⟩
  obtain ⟨g, -, taken⟩ | ⟨-, u, completed, clear⟩ := step_of_running running
  · obtain rfl := Host.Outcome.next.inj (taken.symm.trans ran)
    obtain rfl := Option.some.inj faulted
    rfl
  · obtain rfl := Host.Outcome.next.inj (completed.symm.trans ran)
    exact nomatch clear.symm.trans faulted

theorem stepTransaction_of_halted {s : State} {f : Fault} (halted : s.fault = some f) : stepTransaction s = (s, .failure f) := by
  simp only [stepTransaction, step_of_halted halted]

theorem tickTimers_of_halted {s : State} {f : Fault} (halted : s.fault = some f) : tickTimers s = (s, .refused) := by
  simp only [tickTimers, halted]

theorem setKeyState_of_halted {s : State} {f : Fault} (halted : s.fault = some f) (index : Int) (pressed : Bool) :
    setKeyState index pressed s = (s, .refused) := by
  simp only [setKeyState, halted]

theorem loadProgram_of_halted {s : State} {f : Fault} (halted : s.fault = some f) (bytes : List Byte) :
    loadProgram bytes s = (s, .refused) := by
  simp only [loadProgram, halted]

/-- Settles O31: step and the three other transactions look at FAULT first, and create() keeps nothing of it. -/
theorem haltedCoreRefusesAllButCreate : Obligations.HaltedCoreRefusesAllButCreate := by
  intro s f halted
  exact ⟨step_of_halted halted, stepTransaction_of_halted halted, tickTimers_of_halted halted, setKeyState_of_halted halted,
    loadProgram_of_halted halted, rfl⟩

end Sys2Proof.Machine
end

section
/-! The other transactions of the host (70_reset_and_hazards.md R270 to R276): what each answers on a core that is not halted, the
state a halted core keeps, and the places of the reset state. -/

namespace Sys2Proof.Machine

/-- A halted core keeps its state through every transaction but create() (60_exceptions.md R247). -/
theorem transact_fst_of_halted {s : State} (halted : s.failed) {request : Transaction} (notCreate : request ≠ .create) :
    (transact request s).1 = s := by
  obtain ⟨f, halted⟩ := Option.ne_none_iff_exists'.mp halted
  cases request with
  | create => exact absurd rfl notCreate
  | loadProgram bytes => exact congrArg Prod.fst (loadProgram_of_halted halted bytes)
  | step => exact congrArg Prod.fst (stepTransaction_of_halted halted)
  | tickTimers => exact congrArg Prod.fst (tickTimers_of_halted halted)
  | setKey index pressed => exact congrArg Prod.fst (setKeyState_of_halted halted index pressed)

/-! ### load_program (R274) -/

theorem loadProgram_of_fits {s : State} (running : s.fault = none) {bytes : List Byte} (fits : bytes.length ≤ 3584) :
    loadProgram bytes s = (s.setMem (s.mem.writeRange 0x200 bytes), .ok) := by
  simp only [loadProgram, running]
  exact if_neg (Nat.not_lt.mpr fits)

theorem loadProgram_of_too_large {s : State} (running : s.fault = none) {bytes : List Byte} (tooLarge : 3584 < bytes.length) :
    loadProgram bytes s = (s, .loadTooLarge bytes.length) := by
  simp only [loadProgram, running]
  exact if_pos tooLarge

/-- Settles O51: the length decides between one range write, which ends inside memory and so can be read back, and the error. -/
theorem loadProgramCopiesTheImageOrRejectsIt : Obligations.LoadProgramCopiesTheImageOrRejectsIt := by
  refine fun s bytes => ⟨fun running fits => ?_, fun running tooLarge => loadProgram_of_too_large running tooLarge,
    fun halted => transact_fst_of_halted halted nofun⟩
  have inside : 0x200 + bytes.length ≤ 4096 := by omega
  exact ⟨_, loadProgram_of_fits running fits, fun canonical _ listed => Memory.read_writeRange_same bytes canonical listed inside,
    writeRange_frame s 0x200 bytes⟩

/-! ### create (R270) -/

@[simp] theorem State.reset_getV (x : Nibble) : State.reset.getV x = 0x00#8 := by
  simp [State.getV, State.reset]

@[simp] theorem State.reset_key (k : Fin 16) : State.reset.key[k.val] = false := by
  simp [State.reset]

@[simp] theorem State.reset_stack (k : Fin 16) : State.reset.stack[k.val] = 0x0000#16 := by
  simp [State.reset]

theorem State.reset_read_font {a : Nat} (inFont : a < 80) : State.reset.mem.read a = Config.fontData a := by
  have fontByte := initialByte_font inFont
  rwa [Nat.zero_add] at fontByte

theorem State.reset_read_above_font {a : Nat} (above : 80 ≤ a) : State.reset.mem.read a = 0x00#8 :=
  initialByte_above_font above

/-- Settles O48: create() answers the reset state with the draw counter of the state before, and every other place of it is the
reset state's. -/
theorem createBuildsTheResetState : Obligations.CreateBuildsTheResetState := by
  intro s
  exact ⟨createState s, rfl, fun _ inFont => State.reset_read_font inFont, rfl, fun _ above _ => State.reset_read_above_font above,
    State.reset_getV, State.reset_key, State.reset_stack, rfl, rfl, rfl, rfl, rfl, blankScreen_pixel, rfl, rfl, rfl⟩

/-! ### tick_timers (R275) -/

theorem tickTimers_of_running {s : State} (running : s.fault = none) :
    tickTimers s = ((s.setDt (countDown s.dt)).setSt (countDown s.st), .ok) := by
  simp only [tickTimers, running]

/-- The floor at 0 is the natural subtraction's. -/
theorem countDown_toNat (b : Byte) : (countDown b).toNat = b.toNat - 1 := by
  unfold countDown
  split
  case isTrue positive => exact BitVec.toNat_sub_of_le (x := b) (y := 1#8) (BitVec.le_def.mpr positive)
  case isFalse zero => omega

/-- Settles O49: a tick is one write of DT and one of ST, each of its count taken down. -/
theorem tickDecrementsBothTimersToZero : Obligations.TickDecrementsBothTimersToZero := by
  refine fun s => ⟨fun running => ?_, fun halted => transact_fst_of_halted halted nofun⟩
  exact ⟨_, tickTimers_of_running running, countDown_toNat s.dt, countDown_toNat s.st,
    ((setDt_frame s _).mono fun _ => .inl).trans ((setSt_frame _ _).mono fun _ => .inr)⟩

/-! ### set_key (R276) -/

theorem setKeyState_of_index {s : State} (running : s.fault = none) (k : Fin 16) (pressed : Bool) :
    setKeyState k.val pressed s = (s.setKey k pressed, .ok) := by
  simp only [setKeyState, running]
  exact dif_pos (by omega)

theorem setKeyState_of_invalid {s : State} (running : s.fault = none) {index : Int} (invalid : index < 0 ∨ 16 ≤ index)
    (pressed : Bool) : setKeyState index pressed s = (s, .keyIndexInvalid index) := by
  simp only [setKeyState, running]
  exact dif_neg (by omega)

/-- Settles O50: the index decides between one write of its key and the error. -/
theorem setKeyRecordsOneKey : Obligations.SetKeyRecordsOneKey := by
  refine fun s index pressed => ⟨?_, fun running invalid => setKeyState_of_invalid running invalid pressed,
    fun halted => transact_fst_of_halted halted nofun⟩
  rintro k running rfl
  exact ⟨_, setKeyState_of_index running k pressed, Vector.getElem_set_self k.isLt, setKey_frame s k pressed⟩

end Sys2Proof.Machine
end

section
/-! Decoding undoes encoding: one decoding lemma per row, those of the earlier parts and the three rows left, and the words of no
row (30_encoding.md R95, R98, R99). -/

namespace Sys2Proof

theorem decodeWord_subReg (x y : Nibble) : decodeWord (formXYN 0x8#4 x y 0x5#4) = .subReg x y := by
  simp [decodeWord_formXYN_class8, decodeClass8, formXYN_x, formXYN_y, formXYN_n]

theorem decodeWord_subRegYx (x y : Nibble) : decodeWord (formXYN 0x8#4 x y 0x7#4) = .subRegYx x y := by
  simp [decodeWord_formXYN_class8, decodeClass8, formXYN_x, formXYN_y, formXYN_n]

theorem decodeWord_randAnd (x : Nibble) (nn : Byte) : decodeWord (formXI 0xC#4 x nn) = .randAnd x nn := by
  simp [decodeWord, formXI_d1, formXI_x, formXI_nn]

/-! ### The fields of a word as numbers -/

theorem fieldD1_toNat (op : Word) : (fieldD1 op).toNat = op.toNat / 4096 := by
  have word : op.toNat < 65536 := op.isLt
  rw [fieldD1, BitVec.extractLsb'_toNat, Nat.shiftRight_eq_div_pow]
  exact Nat.mod_eq_of_lt (by omega)

theorem fieldN_toNat (op : Word) : (fieldN op).toNat = op.toNat % 16 :=
  BitVec.extractLsb'_toNat 0 4 op

theorem fieldNN_toNat (op : Word) : (fieldNN op).toNat = op.toNat % 256 :=
  BitVec.extractLsb'_toNat 0 8 op

/-! ### The words of no row -/

/-- In class 8 the function nibbles 8 to D and F have no row. -/
theorem decodeClass8_eq_unimplemented_iff (op : Word) : decodeClass8 op = .unimplemented op ↔
    (8 ≤ (fieldN op).toNat ∧ (fieldN op).toNat ≤ 0xD) ∨ (fieldN op).toNat = 0xF := by
  have nibble : (fieldN op).toNat < 16 := (fieldN op).isLt
  unfold decodeClass8
  split
  case h_10 not0 not1 not2 not3 not4 not5 not6 not7 notE =>
    refine iff_of_true rfl ?_
    rw [imp_false] at *
    omega
  all_goals
    rename_i low
    simp [low]

/-- In class E two low bytes have a row. -/
theorem decodeClassE_eq_unimplemented_iff (op : Word) : decodeClassE op = .unimplemented op ↔
    (fieldNN op).toNat ≠ 0x9E ∧ (fieldNN op).toNat ≠ 0xA1 := by
  unfold decodeClassE
  split
  case h_3 not9E notA1 => exact iff_of_true rfl ⟨not9E, notA1⟩
  all_goals
    rename_i low
    simp [low]

/-- In class F nine low bytes have a row. -/
theorem decodeClassF_eq_unimplemented_iff (op : Word) : decodeClassF op = .unimplemented op ↔
    (fieldNN op).toNat ∉ [0x07, 0x0A, 0x15, 0x18, 0x1E, 0x29, 0x33, 0x55, 0x65] := by
  unfold decodeClassF
  split
  case h_10 not07 not0A not15 not18 not1E not29 not33 not55 not65 =>
    refine iff_of_true rfl ?_
    simp only [List.mem_cons, List.not_mem_nil, or_false, not_or]
    exact ⟨not07, not0A, not15, not18, not1E, not29, not33, not55, not65⟩
  all_goals
    rename_i low
    simp [low]

theorem decodeClass0_eq_unimplemented_iff (op : Word) :
    decodeClass0 op = .unimplemented op ↔ op ≠ 0x00E0#16 ∧ op ≠ 0x00EE#16 := by
  unfold decodeClass0
  split
  case isTrue clear => simp [clear]
  case isFalse notClear =>
    split
    case isTrue ret => simp [ret]
    case isFalse notRet => simp [notClear, notRet]

theorem fieldN_eq_zero_iff (op : Word) : fieldN op = 0x0#4 ↔ (fieldN op).toNat = 0 := by
  rw [← BitVec.toNat_inj]; rfl

/-- The list of 45_unimplemented.md R232 and the decoder's fallback are the same words, class by class. -/
theorem isUnimplementedWord_iff (op : Word) : isUnimplementedWord op = true ↔ decodeWord op = .unimplemented op := by
  unfold isUnimplementedWord decodeWord
  simp only [← fieldD1_toNat, ← fieldN_toNat, ← fieldNN_toNat]
  have nibble : (fieldD1 op).toNat < 16 := (fieldD1 op).isLt
  generalize (fieldD1 op).toNat = c at nibble ⊢
  split
  case h_1 => simp [decodeClass0_eq_unimplemented_iff]
  case h_2 => simp [fieldN_eq_zero_iff]
  case h_3 => simp [decodeClass8_eq_unimplemented_iff]
  case h_4 => simp [fieldN_eq_zero_iff]
  case h_5 => simp
  case h_6 => simp [decodeClassE_eq_unimplemented_iff]
  case h_7 => simp [decodeClassF_eq_unimplemented_iff]
  case h_8 => interval_cases c <;> simp_all

/-! ### Every instruction -/

theorem decodeWord_encode {i : Instr} (wf : i.wellFormed = true) : decodeWord (encode i) = i := by
  cases i with
  | clearDisplay | ret => decide
  | jump nnn => exact decodeWord_jump nnn
  | call nnn => exact decodeWord_call nnn
  | skipEqImm x nn => exact decodeWord_skipEqImm x nn
  | skipNeImm x nn => exact decodeWord_skipNeImm x nn
  | skipEqReg x y => exact decodeWord_formXYN_class5 x y 0x0#4
  | loadImm x nn => exact decodeWord_loadImm x nn
  | addImm x nn => exact decodeWord_addImm x nn
  | loadReg x y => exact decodeWord_loadReg x y
  | orReg x y => exact decodeWord_orReg x y
  | andReg x y => exact decodeWord_andReg x y
  | xorReg x y => exact decodeWord_xorReg x y
  | addReg x y => exact decodeWord_addReg x y
  | subReg x y => exact decodeWord_subReg x y
  | shiftRight x y => exact decodeWord_shiftRight x y
  | subRegYx x y => exact decodeWord_subRegYx x y
  | shiftLeft x y => exact decodeWord_shiftLeft x y
  | skipNeReg x y => exact decodeWord_formXYN_class9 x y 0x0#4
  | loadI nnn => exact decodeWord_loadI nnn
  | randAnd x nn => exact decodeWord_randAnd x nn
  | draw x y n => exact decodeWord_draw x y n
  | skipKeyPressed x => exact decodeWord_skipKeyPressed x
  | skipKeyNotPressed x => exact decodeWord_skipKeyNotPressed x
  | waitKey x => exact decodeWord_waitKey x
  | loadDelay x => exact decodeWord_loadDelay x
  | loadSound x => exact decodeWord_loadSound x
  | setDelay x => exact decodeWord_setDelay x
  | addI x => exact decodeWord_addI x
  | fontAddr x => exact decodeWord_fontAddr x
  | bcd x => exact decodeWord_bcd x
  | storeRegs x => exact decodeWord_storeRegs x
  | loadRegs x => exact decodeWord_loadRegs x
  | unimplemented op => exact (isUnimplementedWord_iff op).mp wf

theorem decode_pair (hi lo : Byte) (rest : List Byte) : decode (hi :: lo :: rest) = .ok (decodeWord (bigEndian hi lo), rest) := rfl

/-- Settles O24: the two bytes combine to the word again, and each row's words decode to that row with the same operands. -/
theorem decodeOfEncodeIsIdentity : Obligations.DecodeOfEncodeIsIdentity := by
  intro i wf
  rw [encodeBytes, decode_pair, bigEndian_wordBytes, decodeWord_encode wf]

/-! ### Every word -/

/-- A word of no row is kept whole (30_encoding.md R98). -/
theorem eq_of_decodeWord_eq_unimplemented {op w : Word} (decoded : decodeWord op = .unimplemented w) : w = op := by
  have rebuilt : encode (decodeWord op) = op := encode_decodeWord op
  rwa [decoded] at rebuilt

theorem decodeWord_wellFormed (op : Word) : (decodeWord op).wellFormed = true := by
  cases decoded : decodeWord op with
  | unimplemented w =>
    obtain rfl := eq_of_decodeWord_eq_unimplemented decoded
    exact (isUnimplementedWord_iff w).mpr decoded
  | _ => rfl

/-- Settles O25: the fallback is reached only by the words listed for it, and encoding undoes decoding on every word. -/
theorem encodeOfDecodeIsIdentity : Obligations.EncodeOfDecodeIsIdentity :=
  fun op => ⟨decodeWord_wellFormed op, encode_decodeWord op⟩

end Sys2Proof
end

section
/-! Dispatch by the opcode map (30_encoding.md R95, R98, R99): a word of a row decodes to that row's instruction, and no two rows
carry one mnemonic, so the rows that match a word are those of the decoded instruction's mnemonic: one, or none where it has no
row. -/

namespace Sys2Proof

/-! ### A word of a row decodes to that row's instruction -/

/-- A word has the row's bits wherever the row's mask is all ones. -/
theorem extract_eq_of_and_eq {op mask pattern : Word} (masked : op &&& mask = pattern) {start len : Nat}
    (ones : mask.extractLsb' start len = BitVec.allOnes len) : op.extractLsb' start len = pattern.extractLsb' start len := by
  rw [← masked, BitVec.extractLsb'_and, ones, BitVec.and_allOnes]

/-- Row by row: the fields the mask fixes are all that the decoder looks at to name the instruction. -/
theorem mnemonic_eq_of_rowMatches {r : OpcodeRow} {op : Word} (row : r ∈ opcodeRows) (matched : rowMatches r op = true) :
    r.mnemonic = mnemonicOf (decodeWord op) := by
  have masked : op &&& r.mask = r.pattern := eq_of_beq matched
  have whole : r.mask = BitVec.allOnes 16 → op = r.pattern := fun ones => by rw [← masked, ones, BitVec.and_allOnes]
  have cls : r.mask.extractLsb' 12 4 = BitVec.allOnes 4 → fieldD1 op = fieldD1 r.pattern := extract_eq_of_and_eq masked
  have low : r.mask.extractLsb' 0 4 = BitVec.allOnes 4 → fieldN op = fieldN r.pattern := extract_eq_of_and_eq masked
  have lowByte : r.mask.extractLsb' 0 8 = BitVec.allOnes 8 → fieldNN op = fieldNN r.pattern := extract_eq_of_and_eq masked
  clear masked matched
  fin_cases row
  all_goals
    simp only [fieldD1, fieldN, fieldNN, forall_const, BitVec.reduceExtractLsb', BitVec.reduceAllOnes]
      at whole cls low lowByte
    simp [decodeWord, decodeClass0, decodeClass8, decodeClassE, decodeClassF, mnemonicOf, fieldD1, fieldN, fieldNN, *]

theorem rowMatches_iff {r : OpcodeRow} {op : Word} (row : r ∈ opcodeRows) :
    rowMatches r op = true ↔ r.mnemonic = mnemonicOf (decodeWord op) :=
  ⟨mnemonic_eq_of_rowMatches row, rowMatches_of_mnemonic_decodeWord row⟩

/-! ### The rows of a mnemonic -/

/-- Every instruction but `unimplemented` has exactly one row. -/
theorem filter_mnemonics (i : Instr) : ((opcodeRows.map OpcodeRow.mnemonic).filter fun m => m = mnemonicOf i) =
    if ∃ op, i = .unimplemented op then [] else [mnemonicOf i] := by
  cases i with
  | unimplemented op =>
    rw [if_pos ⟨op, rfl⟩]
    rfl
  | _ =>
    rw [if_neg nofun]
    rfl

theorem exists_eq_unimplemented_iff (op : Word) :
    (∃ w, decodeWord op = .unimplemented w) ↔ isUnimplementedWord op = true := by
  rw [isUnimplementedWord_iff]
  refine ⟨fun ⟨w, decoded⟩ => ?_, fun decoded => ⟨op, decoded⟩⟩
  obtain rfl := eq_of_decodeWord_eq_unimplemented decoded
  exact decoded

/-- Settles O26: the rows that match a word are those with the mnemonic of the decoded instruction. -/
theorem dispatchIsTheUniqueMatchingRow : Obligations.DispatchIsTheUniqueMatchingRow := by
  refine fun op => ⟨?_, isUnimplementedWord_iff op⟩
  have matching : (opcodeRows.filter fun r => rowMatches r op) =
      opcodeRows.filter fun r => r.mnemonic = mnemonicOf (decodeWord op) :=
    List.filter_congr fun r row => Bool.eq_iff_iff.mpr ((rowMatches_iff row).trans decide_eq_true_iff.symm)
  calc (opcodeRows.filter fun r => rowMatches r op).map OpcodeRow.mnemonic
    _ = (opcodeRows.map OpcodeRow.mnemonic).filter fun m => m = mnemonicOf (decodeWord op) := by rw [matching, List.filter_map]; rfl
    _ = if ∃ w, decodeWord op = .unimplemented w then [] else [mnemonicOf (decodeWord op)] := filter_mnemonics _
    _ = if isUnimplementedWord op = true then [] else [mnemonicOf (decodeWord op)] := by
      simp only [exists_eq_unimplemented_iff]

end Sys2Proof
end

section
/-! What an instruction can do, said once: the fault the table gives, or the writes that 10_state.md's 'written by' column lets it
make. The frames and the invariants below are case analyses of it. -/

namespace Sys2Proof.Machine

/-! ### The answers of the shared operations -/

/-- A push leaves the state with the slot at SP written and SP one higher. -/
theorem of_pushReturn {P : State → Prop} {a : Word} {s u : State} (pushed : pushReturn a s = .ok u)
    (stored : ∀ k : Fin 16, s.sp.val = k.val → P (s.setStack (s.stack.set k.val a k.isLt) k.succ)) : P u := by
  obtain ⟨room, ok⟩ | ⟨-, failed⟩ := pushReturn_cases a s
  · obtain rfl := Except.ok.inj (ok.symm.trans pushed)
    exact stored ⟨s.sp.val, room⟩ rfl
  · exact nomatch failed.symm.trans pushed

/-- A pop answers the slot below SP and leaves SP one lower. -/
theorem of_popReturn {P : Word × State → Prop} {s : State} {popped : Word × State} (ok : popReturn s = .ok popped)
    (taken : ∀ k : Fin 16, s.sp.val = k.val + 1 → P (s.stack[k.val], s.setStack s.stack k.castSucc)) : P popped := by
  obtain ⟨nonempty, below, _, ok'⟩ | ⟨-, failed⟩ := popReturn_cases s
  · obtain rfl := Except.ok.inj (ok'.symm.trans ok)
    exact taken ⟨s.sp.val - 1, below⟩ (Nat.sub_add_cancel nonempty).symm
  · exact nomatch failed.symm.trans ok

/-- A write that passed its check starts above the font table. -/
theorem aboveFont_of_checkWrite_ok {i : Word} {n : Nat} (nonempty : n ≠ 0) {u : Unit} (passed : checkWrite i n = .ok u) :
    Config.fontSize ≤ i.toNat := by
  obtain ⟨above, -, -⟩ | ⟨-, failed⟩ | ⟨-, -, failed⟩ := checkWrite_cases i nonempty
  · exact above
  · exact nomatch failed.symm.trans passed
  · exact nomatch failed.symm.trans passed

/-! ### Every instruction -/

/-- The states `exec i s` can answer. Which of an instruction's answers it gives, and the values it writes, are left open where no
frame and no invariant asks for them. -/
inductive Effect (s : State) : Instr → State → Prop where
  | fault {i : Instr} (f : Fault) (table : instrFault i (pcInsn s) s = some f) : Effect s i (raise f s)
  | register {i : Instr} {x : Nibble} (named : destination i = some x) (b : Byte) : Effect s i (s.setV x b)
  | flagged {i : Instr} {x : Nibble} (named : destination i = some x) (flags : writesFlag i = true) (result flag : Byte) :
      Effect s i (writeResultThenFlag x result flag s)
  | random (x : Nibble) (nn b : Byte) : Effect s (.randAnd x nn) ((drawRandom s).2.setV x b)
  | registers (x : Nibble) : Effect s (.loadRegs x) (s.setRegs (regsFromMemory s x))
  | cleared : Effect s .clearDisplay (s.setFb blankScreen)
  | drawn (x y n : Nibble) : Effect s (.draw x y n) (afterDraw x y n s)
  | loadI (a : Addr12) : Effect s (.loadI a) (s.setI (zextAddr a))
  | addI (x : Nibble) (w : Word) : Effect s (.addI x) (s.setI w)
  | fontAddr (x : Nibble) (w : Word) : Effect s (.fontAddr x) (s.setI w)
  | digits (x : Nibble) (aboveFont : Config.fontSize ≤ s.i.toNat) :
      Effect s (.bcd x) (s.setMem (s.mem.writeRange s.i.toNat (bcdDigits (s.getV x))))
  | stored (x : Nibble) (aboveFont : Config.fontSize ≤ s.i.toNat) :
      Effect s (.storeRegs x) (s.setMem (s.mem.writeRange s.i.toNat (regsUpTo s x)))
  | jumped (a : Addr12) : Effect s (.jump a) (s.setPc (zextAddr a))
  | called (a : Addr12) (k : Fin 16) (sp : s.sp.val = k.val) :
      Effect s (.call a) ((s.setStack (s.stack.set k.val s.pc k.isLt) k.succ).setPc (zextAddr a))
  | returned (k : Fin 16) (sp : s.sp.val = k.val + 1) : Effect s .ret ((s.setStack s.stack k.castSucc).setPc s.stack[k.val])
  | skipped {i : Instr} (writes : writesPc i = true) (c : Bool) : Effect s i (skipIf c s)
  | rewound (x : Nibble) : Effect s (.waitKey x) (rewind s)
  | delay (x : Nibble) (b : Byte) : Effect s (.setDelay x) (s.setDt b)
  | sound (x : Nibble) (b : Byte) : Effect s (.loadSound x) (s.setSt b)
  | reported (op : Word) : Effect s (.unimplemented op) (report op s)

/-- An instruction that is `finish` of the check for its fault takes that fault or has the effect of the state it computes. -/
theorem effect_of_eq_finish {α : Type} {i : Instr} {s t : State} {r : Result} {checked : Except Fault α} {result : α → State}
    (ran : r = .next t) (shape : r = finish s (checked.map result)) (table : checkFault checked = instrFault i (pcInsn s) s)
    (completed : ∀ a, checked = .ok a → Effect s i (result a)) : Effect s i t := by
  subst shape
  cases checked with
  | ok a =>
    obtain rfl := Host.Outcome.next.inj ran
    exact completed a rfl
  | error f =>
    obtain rfl := Host.Outcome.next.inj ran
    exact .fault f table.symm

theorem execWaitKey_effect {x : Nibble} {s t : State} (ran : execWaitKey x s = .next t) : Effect s (.waitKey x) t := by
  cases pressed : lowestKey s.key with
  | none =>
    obtain rfl := Host.Outcome.next.inj ((execWaitKey_of_none x pressed).symm.trans ran)
    exact .rewound x
  | some k =>
    obtain rfl := Host.Outcome.next.inj ((execWaitKey_of_some x pressed).symm.trans ran)
    exact .register rfl _

/-- Case by case over the instructions: one write, or `finish` of the check that stands before the writes. -/
theorem exec_effect {i : Instr} {s t : State} (ran : exec i s = .next t) : Effect s i t := by
  cases i with
  | ret =>
    exact effect_of_eq_finish ran (execReturn_eq_finish s) (checkFault_popReturn s) fun _ popped =>
      of_popReturn (P := fun p => Effect s .ret (p.2.setPc p.1)) popped .returned
  | call a =>
    exact effect_of_eq_finish ran (execCall_eq_finish a s) (checkFault_pushReturn s.pc s) fun _ pushed =>
      of_pushReturn (P := fun u => Effect s (.call a) (u.setPc _)) pushed (.called a)
  | skipKeyPressed x =>
    exact effect_of_eq_finish ran (execSkipKeyPressed_eq_finish x s) (checkFault_keyIndex _) fun _ _ => .skipped rfl _
  | skipKeyNotPressed x =>
    exact effect_of_eq_finish ran (execSkipKeyNotPressed_eq_finish x s) (checkFault_keyIndex _) fun _ _ => .skipped rfl _
  | draw x y n =>
    exact effect_of_eq_finish ran (execDraw_eq_finish x y n s) (checkFault_checkRead s.i _) fun _ _ => .drawn x y n
  | bcd x =>
    exact effect_of_eq_finish ran (execBcd_eq_finish x s) (checkFault_checkWrite s.i (by decide)) fun _ passed =>
      .digits x (aboveFont_of_checkWrite_ok (by decide) passed)
  | storeRegs x =>
    exact effect_of_eq_finish ran (execStoreRegs_eq_finish x s) (checkFault_checkWrite s.i (Nat.succ_ne_zero _)) fun _ passed =>
      .stored x (aboveFont_of_checkWrite_ok (Nat.succ_ne_zero _) passed)
  | loadRegs x =>
    exact effect_of_eq_finish ran (execLoadRegs_eq_finish x s) (checkFault_checkRead s.i _) fun _ _ => .registers x
  | waitKey x => exact execWaitKey_effect ran
  | loadImm _ _ | addImm _ _ | loadReg _ _ | orReg _ _ | andReg _ _ | xorReg _ _ | loadDelay _ =>
    obtain rfl := Host.Outcome.next.inj ran
    exact .register rfl _
  | addReg _ _ | subReg _ _ | shiftRight _ _ | subRegYx _ _ | shiftLeft _ _ =>
    obtain rfl := Host.Outcome.next.inj ran
    exact .flagged rfl rfl _ _
  | skipEqImm _ _ | skipNeImm _ _ | skipEqReg _ _ | skipNeReg _ _ =>
    obtain rfl := Host.Outcome.next.inj ran
    exact .skipped rfl _
  | clearDisplay | jump _ | loadI _ | addI _ | fontAddr _ | randAnd _ _ | loadSound _ | setDelay _ | unimplemented _ =>
    obtain rfl := Host.Outcome.next.inj ran
    constructor

/-! ### The 'written by' column of 10_state.md -/

/-- Each write of an effect is to a place its instruction may write. -/
theorem effect_frame {i : Instr} {s t : State} (effect : Effect s i t) : unchangedBut (mayWrite i s) s t := by
  cases effect with
  | fault f table =>
    have faults : instrFault i (pcInsn s) s ≠ none := table ▸ Option.some_ne_none f
    refine (raise_frame f s).mono ?_
    rintro _ (rfl | rfl)
    · exact .inr faults
    · exact faults
  | register named b =>
    refine (setV_frame s _ b).mono ?_
    rintro _ rfl
    exact .inl named
  | flagged named flags result flag =>
    refine (writeResultThenFlag_frame _ result flag s).mono ?_
    rintro _ (rfl | rfl)
    · exact .inl named
    · exact .inr (.inl ⟨flags, rfl⟩)
  | random x nn b =>
    refine .trans ((drawRandom_frame s).mono ?_) ((setV_frame _ x b).mono ?_)
    · rintro _ rfl
      exact ⟨x, nn, rfl⟩
    · rintro _ rfl
      exact .inl rfl
  | registers x =>
    refine (regsFromMemory_frame s x).mono ?_
    rintro _ ⟨k, le, rfl⟩
    exact .inr (.inr ⟨x, rfl, le⟩)
  | cleared =>
    refine (setFb_frame s _).mono ?_
    rintro _ ⟨c, r, rfl⟩
    exact .inl rfl
  | drawn x y n =>
    refine (afterDraw_frame x y n s).mono ?_
    rintro _ (rfl | ⟨c, r, rfl⟩)
    · exact .inr (.inl ⟨rfl, rfl⟩)
    · exact .inr ⟨x, y, n, rfl⟩
  | loadI a =>
    refine (setI_frame s _).mono ?_
    rintro _ rfl
    exact .inl ⟨a, rfl⟩
  | addI x w =>
    refine (setI_frame s w).mono ?_
    rintro _ rfl
    exact .inr (.inl ⟨x, rfl⟩)
  | fontAddr x w =>
    refine (setI_frame s w).mono ?_
    rintro _ rfl
    exact .inr (.inr ⟨x, rfl⟩)
  | digits x _ =>
    refine (writeRange_frame s _ _).mono ?_
    rintro _ ⟨k, listed, rfl⟩
    exact .inl ⟨⟨x, rfl⟩, Nat.le_add_right _ k, Nat.add_lt_add_left listed _⟩
  | stored x _ =>
    refine (writeRange_regsUpTo_frame s _ x).mono ?_
    rintro _ ⟨k, le, rfl⟩
    exact .inr ⟨x, rfl, Nat.le_add_right _ k, Nat.add_le_add_left le _⟩
  | jumped a =>
    refine (setPc_frame s _).mono ?_
    rintro _ rfl
    exact .inl rfl
  | called a k sp =>
    refine (push_setPc_frame s k _ _ _).mono ?_
    rintro _ (rfl | rfl | rfl)
    · exact .inl rfl
    · exact .inl ⟨a, rfl⟩
    · exact ⟨⟨a, rfl⟩, sp.symm⟩
  | returned k _ =>
    refine (pop_setPc_frame s _ _).mono ?_
    rintro _ (rfl | rfl)
    · exact .inl rfl
    · exact .inr rfl
  | skipped writes c =>
    refine (skipIf_frame c s).mono ?_
    rintro _ rfl
    exact .inl writes
  | rewound x =>
    refine (setPc_frame s _).mono ?_
    rintro _ rfl
    exact .inl rfl
  | delay x b =>
    refine (setDt_frame s b).mono ?_
    rintro _ rfl
    exact ⟨x, rfl⟩
  | sound x b =>
    refine (setSt_frame s b).mono ?_
    rintro _ rfl
    exact ⟨x, rfl⟩
  | reported op =>
    refine (report_frame op s).mono ?_
    rintro _ rfl
    exact ⟨op, rfl⟩

/-- Settles O37: an instruction has one of its effects, and no effect leaves its frame. -/
theorem instructionsWriteOnlyTheirParts : Obligations.InstructionsWriteOnlyTheirParts :=
  fun _ _ _ ran => effect_frame (exec_effect ran)

end Sys2Proof.Machine
end

section
/-! The invariants of the core (10_state.md R35, 20_memory.md R66): at reset, over one step, and over any list of the host's
transactions (70_reset_and_hazards.md R282). -/

namespace Sys2Proof.Machine

/-- A step that answers a state takes the fetch's fault or runs an instruction that starts two past PC. -/
theorem step_next_cases {s t : State} (ran : step s = .next t) :
    (∃ f, t = enterFault f s) ∨ (s.pc.toNat ≤ 0xFFE ∧ ∃ i, Effect (advancePc s) i t) := by
  cases halted : s.fault with
  | some f => exact nomatch (step_of_halted halted).symm.trans ran
  | none =>
    obtain ⟨inMemory, -⟩ | ⟨-, failed⟩ := fetch_cases s
    · have fetchable : s.pc.toNat ≤ 0xFFE := Nat.le_of_succ_le_succ inMemory
      exact .inr ⟨fetchable, _, exec_effect ((step_of_fetch halted fetchable).symm.trans ran)⟩
    · exact .inl ⟨_, (Host.Outcome.next.inj ((step_of_fetch_error halted failed).symm.trans ran)).symm⟩

/-! ### Memory and the font -/

/-- A range write above the font table keeps the canonical form and every font byte. -/
theorem memoryInv_writeRange {s : State} (inv : s.memoryInv) {a : Nat} (aboveFont : Config.fontSize ≤ a) (bs : List Byte) :
    (s.setMem (s.mem.writeRange a bs)).memoryInv := by
  obtain ⟨canonical, font⟩ := inv
  refine ⟨Memory.writeRange_wf bs canonical a, fun k inFont => ?_⟩
  have below : Config.fontBase + k < a := by simp only [Config.fontBase]; omega
  exact (Memory.read_writeRange_other bs s.mem (.inl below)).trans (font k inFont)

theorem memoryInv_of_mem_eq {s t : State} (inv : s.memoryInv) (same : t.mem = s.mem) : t.memoryInv := by
  simp only [State.memoryInv, State.fontIntact, same]
  exact inv

theorem skipIf_mem (c : Bool) (s : State) : (skipIf c s).mem = s.mem := by
  cases c <;> rfl

/-- The two stores write above the font table, and no other effect writes memory. -/
theorem effect_memoryInv {i : Instr} {s t : State} (effect : Effect s i t) (inv : s.memoryInv) : t.memoryInv := by
  cases effect with
  | digits x aboveFont => exact memoryInv_writeRange inv aboveFont _
  | stored x aboveFont => exact memoryInv_writeRange inv aboveFont _
  | skipped _ c => exact memoryInv_of_mem_eq inv (skipIf_mem c s)
  | registers x => exact memoryInv_of_mem_eq inv (State.setRegs_mem s _)
  | _ => exact memoryInv_of_mem_eq inv rfl

/-- Settles O32: the fetch's fault and the fetch's advance leave memory alone, and every effect keeps the invariant. -/
theorem everyStepKeepsMemoryAndFont : Obligations.EveryStepKeepsMemoryAndFont := by
  intro s t inv ran
  obtain ⟨f, rfl⟩ | ⟨-, i, effect⟩ := step_next_cases ran
  · exact inv
  · exact effect_memoryInv effect inv

theorem reset_memoryInv : State.reset.memoryInv := by
  refine ⟨Memory.wf_nil, fun a inFont => ?_⟩
  exact initialByte_font inFont

/-- Settles O33: no byte is listed, so every address holds its reset byte. -/
theorem resetHasCanonicalMemoryAndFont : Obligations.ResetHasCanonicalMemoryAndFont :=
  ⟨reset_memoryInv, rfl⟩

/-! ### PC and the return addresses -/

/-- Every return address on the stack is at most 0x1000 (10_state.md R35). -/
abbrev State.stackBound (s : State) : Prop := ∀ k : Fin 16, k.val < s.sp.val → s.stack[k.val].toNat ≤ 0x1000

theorem add_two_toNat {w : Word} (le : w.toNat ≤ 0x1000) : (w + 2).toNat = w.toNat + 2 :=
  BitVec.toNat_add_of_lt (y := 2#16) (Nat.lt_of_le_of_lt (Nat.add_le_add_right le 2) (by decide))

theorem sub_two_toNat {w : Word} (two_le : 2 ≤ w.toNat) : (w - 2).toNat = w.toNat - 2 :=
  BitVec.toNat_sub_of_le (x := w) (y := 2#16) (BitVec.le_def.mpr two_le)

theorem zextAddr_le (a : Addr12) : (zextAddr a).toNat ≤ 0x1002 := by
  have addr : a.toNat < 4096 := a.isLt
  rw [zextAddr_toNat]
  omega

/-- From the state the fetch leaves, PC between 2 and 0x1000: a jump goes to a 12-bit address, a skip adds 2, a fault and wait-key
take 2 off, and a return goes to an address a call pushed. -/
theorem effect_pcInv {i : Instr} {s t : State} (effect : Effect s i t) (two_le : 2 ≤ s.pc.toNat) (le : s.pc.toNat ≤ 0x1000)
    (bound : s.stackBound) : t.pcInv := by
  have kept : s.pc.toNat ≤ 0x1002 := by omega
  have back : (s.pc - 2).toNat ≤ 0x1002 := by rw [sub_two_toNat two_le]; omega
  have skips : (s.pc + 2).toNat ≤ 0x1002 := by rw [add_two_toNat le]; omega
  cases effect with
  | fault f _ => exact ⟨back, bound⟩
  | rewound x => exact ⟨back, bound⟩
  | jumped a => exact ⟨zextAddr_le a, bound⟩
  | skipped _ c =>
    cases c with
    | false => exact ⟨kept, bound⟩
    | true => exact ⟨skips, bound⟩
  | called a k sp =>
    refine ⟨zextAddr_le a, fun j (below : j.val < k.val + 1) => ?_⟩
    show (s.stack.set k.val s.pc k.isLt)[j.val].toNat ≤ 0x1000
    rw [Vector.getElem_set]
    split
    case isTrue => exact le
    case isFalse other => exact bound j (by omega)
  | returned k sp =>
    have popped : s.stack[k.val].toNat ≤ 0x1000 := bound k (by omega)
    refine ⟨popped.trans (by decide), fun j (below : j.val < k.val) => bound j (by omega)⟩
  | registers x =>
    generalize regsFromMemory s x = loaded
    exact ⟨kept, bound⟩
  | _ => exact ⟨kept, bound⟩

/-- Settles O34: only a PC of at most 0xFFE is fetched from, and the effects start from that PC advanced by 2. -/
theorem everyStepKeepsThePcBound : Obligations.EveryStepKeepsThePcBound := by
  intro s t inv ran
  obtain ⟨pcBound, bound⟩ := inv
  obtain ⟨f, rfl⟩ | ⟨fetchable, i, effect⟩ := step_next_cases ran
  · exact ⟨pcBound, bound⟩
  · have advanced : (advancePc s).pc.toNat = s.pc.toNat + 2 := add_two_toNat (by omega)
    exact effect_pcInv effect (by omega) (by omega) bound

theorem reset_pcInv : State.reset.pcInv :=
  ⟨by decide, nofun⟩

/-- Settles O35: no address is on the stack yet, and PC is the load address. -/
theorem resetHasThePcBound : Obligations.ResetHasThePcBound :=
  ⟨reset_pcInv, rfl⟩

/-! ### Any list of transactions -/

/-- The two invariants together, as the transactions keep them. -/
abbrev State.inv (s : State) : Prop := s.memoryInv ∧ s.pcInv

theorem loadProgram_inv (bytes : List Byte) {s : State} (inv : s.inv) : (loadProgram bytes s).1.inv := by
  unfold loadProgram
  split
  · exact inv
  · split
    · exact inv
    · exact ⟨memoryInv_writeRange inv.1 (by decide) bytes, inv.2⟩

theorem stepTransaction_inv {s : State} (inv : s.inv) : (stepTransaction s).1.inv := by
  obtain ⟨memory, pc⟩ := inv
  unfold stepTransaction
  split
  case h_1 t ran =>
    have after : t.inv := ⟨everyStepKeepsMemoryAndFont s t memory ran, everyStepKeepsThePcBound s t pc ran⟩
    split <;> exact after
  · exact ⟨memory, pc⟩
  · exact ⟨memory, pc⟩

theorem tickTimers_inv {s : State} (inv : s.inv) : (tickTimers s).1.inv := by
  unfold tickTimers
  split <;> exact inv

theorem setKeyState_inv (index : Int) (pressed : Bool) {s : State} (inv : s.inv) : (setKeyState index pressed s).1.inv := by
  unfold setKeyState
  split
  · exact inv
  · split <;> exact inv

theorem transact_inv (request : Transaction) {s : State} (inv : s.inv) : (transact request s).1.inv := by
  cases request with
  | create => exact ⟨reset_memoryInv, reset_pcInv⟩
  | loadProgram bytes => exact loadProgram_inv bytes inv
  | step => exact stepTransaction_inv inv
  | tickTimers => exact tickTimers_inv inv
  | setKey index pressed => exact setKeyState_inv index pressed inv

/-- Settles O36, by induction on the transactions. -/
theorem everyHostInterleavingKeepsTheInvariants : Obligations.EveryHostInterleavingKeepsTheInvariants := by
  intro ts
  induction ts with
  | nil => exact fun _ inv => inv
  | cons request ts ih => exact fun s inv => ih _ (transact_inv request inv)

end Sys2Proof.Machine
end

section
/-! A call and its return (40_control_flow.md R129). -/

namespace Sys2Proof.Machine

/-- Settles O41: the return finds in the slot below SP what the call put there. -/
theorem callThenReturnComesBack : Obligations.CallThenReturnComesBack := by
  intro s nnn room
  let k : Fin 16 := ⟨s.sp.val, room⟩
  refine ⟨_, execCall_of_sp_eq (k := k) nnn rfl, fun u sameSp sameStack => ?_⟩
  have sp : u.sp.val = k.val + 1 := congrArg Fin.val sameSp
  refine ⟨_, execReturn_of_sp_succ sp, ?pc, rfl, rfl⟩
  show u.stack[k.val] = s.pc
  simp only [sameStack]
  exact Vector.getElem_set_self k.isLt

end Sys2Proof.Machine
end

section
/-! Two inferences on draw: the same sprite drawn twice (43_display.md R193), and a sprite over both edges (R194). -/

namespace Sys2Proof.Machine

/-! ### The same draw twice (43_display.md R193) -/

@[simp] theorem afterDraw_mem (x y n : Nibble) (s : State) : (afterDraw x y n s).mem = s.mem := rfl

@[simp] theorem afterDraw_i (x y n : Nibble) (s : State) : (afterDraw x y n s).i = s.i := rfl

/-- A sprite covers the same pixels in a state with the same memory, I and coordinates. -/
theorem spriteCovers_congr {s t : State} {x y : Nibble} (mem : t.mem = s.mem) (index : t.i = s.i) (column : t.getV x = s.getV x)
    (row : t.getV y = s.getV y) (n : Nibble) (c : Fin 64) (r : Fin 32) : spriteCovers t x y n c r ↔ spriteCovers s x y n c r := by
  simp only [spriteCovers, mem, index, column, row]

/-- Settles O42: a second flip undoes the first, and a pixel under a 1 bit is on before the second draw exactly when it was off
before the first. -/
theorem drawingTwiceRestoresThePixels : Obligations.DrawingTwiceRestoresThePixels := by
  intro s x y n inside
  refine ⟨afterDraw x y n s, exec_draw_of_inside x y (by omega), fun column row => ?_⟩
  have covers (c : Fin 64) (r : Fin 32) : spriteCovers (afterDraw x y n s) x y n c r ↔ spriteCovers s x y n c r :=
    spriteCovers_congr (afterDraw_mem x y n s) (afterDraw_i x y n s) column row n c r
  have insideAgain : n.toNat = 0 ∨ (afterDraw x y n s).i.toNat + n.toNat ≤ 4096 := by
    rw [afterDraw_i]
    omega
  refine ⟨_, exec_draw_of_inside x y insideAgain, fun c r => ?pixels, ?wasOff, ?allOn⟩
  case pixels =>
    by_cases covered : spriteCovers s x y n c r
    · rw [afterDraw_pixel_covered ((covers c r).mpr covered), afterDraw_pixel_covered covered, Bool.not_not]
    · rw [afterDraw_pixel_other (mt (covers c r).mp covered), afterDraw_pixel_other covered]
  case wasOff =>
    rintro ⟨c, r, covered, off⟩
    refine afterDraw_vf_of_collision ⟨c, r, (covers c r).mpr covered, ?_⟩
    rw [afterDraw_pixel_covered covered, off, Bool.not_false]
  case allOn =>
    intro on
    refine afterDraw_vf_of_no_collision fun c r covered => ?_
    have before := (covers c r).mp covered
    rw [afterDraw_pixel_covered before, on c r before, Bool.not_true]

/-! ### Drawing over the edges (43_display.md R194) -/

/-- A pixel is XORed with the one bit of the sprite that lands on it. -/
theorem afterDraw_pixel_of_lands {s : State} {x y n : Nibble} {c : Fin 64} {r : Fin 32} {row col : Nat} (rows : row < n.toNat)
    (cols : col < 8) (column : ((s.getV x).toNat + col) % 64 = c.val) (line : ((s.getV y).toNat + row) % 32 = r.val) :
    (afterDraw x y n s).fb.pixel c r = (s.fb.pixel c r ^^ (s.mem.read (s.i.toNat + row)).getLsbD (7 - col)) := by
  cases bit : (s.mem.read (s.i.toNat + row)).getLsbD (7 - col) with
  | true => rw [afterDraw_pixel_covered ⟨row, rows, col, cols, bit, column.symm, line.symm⟩, Bool.xor_true]
  | false =>
    have other : ¬ spriteCovers s x y n c r := by
      rintro ⟨row', rows', col', cols', bit', column', line'⟩
      have nibble : n.toNat < 16 := n.isLt
      obtain rfl : row' = row := by omega
      obtain rfl : col' = col := by omega
      exact Bool.false_ne_true (bit.symm.trans bit')
    rw [afterDraw_pixel_other other, Bool.xor_false]

/-- Settles O43: each corner pixel is where one bit of the first two columns and rows lands. -/
theorem drawWrapsAtBothEdges : Obligations.DrawWrapsAtBothEdges := by
  intro s x y n lastColumn lastRow rows inside
  have column (col : Nat) : ((s.getV x).toNat + col) % 64 = (63 + col) % 64 := by rw [lastColumn]; rfl
  have line (row : Nat) : ((s.getV y).toNat + row) % 32 = (31 + row) % 32 := by rw [lastRow]; rfl
  have first : 0 < n.toNat := by omega
  refine ⟨_, exec_draw_of_inside x y (.inr (by omega)), ?_, ?_, ?_, ?_⟩
  · exact afterDraw_pixel_of_lands (row := 0) (col := 0) first (by decide) (column 0) (line 0)
  · exact afterDraw_pixel_of_lands (row := 0) (col := 1) first (by decide) (column 1) (line 0)
  · exact afterDraw_pixel_of_lands (row := 1) (col := 0) rows (by decide) (column 0) (line 1)
  · exact afterDraw_pixel_of_lands (row := 1) (col := 1) rows (by decide) (column 1) (line 1)

end Sys2Proof.Machine
end

section
/-! Fetching a stored word (20_memory.md R74). -/

namespace Sys2Proof.Machine

/-- Settles O44: the two bytes at I read back as V[0] and V[1]. -/
theorem fetchSeesStoredRegisters : Obligations.FetchSeesStoredRegisters := by
  intro s x canonical two aboveFont inside
  have passed : checkWrite s.i (x.toNat + 1) = .ok () := checkWrite_of_inside (Nat.succ_ne_zero _) aboveFont (by omega)
  refine ⟨_, (execStoreRegs_eq_finish x s).trans (finish_map_of_ok passed s _), ?_⟩
  have stored (k : Nibble) (le : k.toNat ≤ x.toNat) :
      (s.mem.writeRange s.i.toNat (regsUpTo s x)).read (s.i.toNat + k.toNat) = s.getV k :=
    read_writeRange_regsUpTo canonical (by omega) le
  have high := stored 0x0#4 (Nat.zero_le _)
  have low := stored 0x1#4 two
  exact (fetch16_toNat _ _).trans (congrArg₂ (fun hi lo : Byte => 256 * hi.toNat + lo.toNat) high low)

end Sys2Proof.Machine
end

section
/-! Two-run statements: what no step reads. ST and REPORTS are never read (10_state.md R40, R46), nor is a stack slot at or above SP
(R39). One statement serves both: a step from a state with other unread values answers the same state with other unread values. -/

namespace Sys2Proof.Machine

/-- Values for the places that hold what no step reads: ST, REPORTS and, at and above SP, the stack. -/
structure Unread where
  stack : Vector Word 16
  st : Byte
  reports : List Word

/-- `s` with the unread values `u`. -/
def State.withUnread (s : State) (u : Unread) : State := { s with stack := u.stack, st := u.st, reports := u.reports }

/-- `u` differs from `s` only where no step reads: in ST and REPORTS only if `sound` holds, in the dead slots only if `slots`
does. -/
structure Unread.Fits (sound slots : Prop) (u : Unread) (s : State) : Prop where
  live : ∀ k : Fin 16, k.val < s.sp.val → u.stack[k.val] = s.stack[k.val]
  stack : ¬ slots → u.stack = s.stack
  st : ¬ sound → u.st = s.st
  reports : ¬ sound → u.reports = s.reports

/-- `r` answers the state `t` with other unread values. -/
def AnswersSame (sound slots : Prop) (t : State) (r : Result) : Prop :=
  ∃ u : Unread, u.Fits sound slots t ∧ r = .next (t.withUnread u)

section
variable {sound slots : Prop} {u : Unread} {s t : State}

theorem Unread.Fits.congr (fits : u.Fits sound slots s) (sp : t.sp = s.sp) (stack : t.stack = s.stack) (st : t.st = s.st)
    (reports : t.reports = s.reports) : u.Fits sound slots t := by
  obtain ⟨live, stack', st', reports'⟩ := fits
  exact ⟨by simpa only [sp, stack] using live, by rwa [stack], by rwa [st], by rwa [reports]⟩

/-! ### The shared operations -/

/-- A check that reads nothing unread fails in both runs with one fault, or the states computed agree. -/
theorem answersSame_of_eq_finish {α : Type} {r r' : Result} {checked : Except Fault α} {result result' : α → State}
    (fits : u.Fits sound slots s) (ran : r = .next t) (shape : r = finish s (checked.map result))
    (shape' : r' = finish (s.withUnread u) (checked.map result'))
    (completed : ∀ a, AnswersSame sound slots (result a) (.next (result' a))) : AnswersSame sound slots t r' := by
  subst shape shape'
  cases checked with
  | ok a =>
    obtain rfl := Host.Outcome.next.inj ran
    exact completed a
  | error f =>
    obtain rfl := Host.Outcome.next.inj ran
    exact ⟨u, fits.congr rfl rfl rfl rfl, rfl⟩

theorem skipIf_answersSame (fits : u.Fits sound slots s) (c : Bool) :
    AnswersSame sound slots (skipIf c s) (.next (skipIf c (s.withUnread u))) := by
  cases c with
  | false => exact ⟨u, fits, rfl⟩
  | true => exact ⟨u, fits.congr rfl rfl rfl rfl, rfl⟩

theorem execWaitKey_answersSame {x : Nibble} (fits : u.Fits sound slots s) (ran : execWaitKey x s = .next t) :
    AnswersSame sound slots t (execWaitKey x (s.withUnread u)) := by
  cases pressed : lowestKey s.key with
  | none =>
    obtain rfl := Host.Outcome.next.inj ((execWaitKey_of_none x pressed).symm.trans ran)
    exact ⟨u, fits.congr rfl rfl rfl rfl, execWaitKey_of_none x (s := s.withUnread u) pressed⟩
  | some k =>
    obtain rfl := Host.Outcome.next.inj ((execWaitKey_of_some x pressed).symm.trans ran)
    exact ⟨u, fits.congr rfl rfl rfl rfl, execWaitKey_of_some x (s := s.withUnread u) pressed⟩

/-- A return reads the slot below SP, which is live. -/
theorem execReturn_answersSame (fits : u.Fits sound slots s) (ran : execReturn s = .next t) :
    AnswersSame sound slots t (execReturn (s.withUnread u)) := by
  obtain empty | ⟨k, sp⟩ : s.sp.val = 0 ∨ ∃ k : Fin 16, s.sp.val = k.val + 1 :=
    s.sp.cases (.inl rfl) fun k => .inr ⟨k, rfl⟩
  · obtain rfl := Host.Outcome.next.inj ((execReturn_of_sp_zero empty).symm.trans ran)
    exact ⟨u, fits.congr rfl rfl rfl rfl, execReturn_of_sp_zero (s := s.withUnread u) empty⟩
  · obtain rfl := Host.Outcome.next.inj ((execReturn_of_sp_succ sp).symm.trans ran)
    have popped : u.stack[k.val] = s.stack[k.val] := fits.live k (by omega)
    refine ⟨u, ⟨fun j (below : j.val < k.val) => fits.live j (by omega), fits.stack, fits.st, fits.reports⟩, ?_⟩
    rw [execReturn_of_sp_succ (s := s.withUnread u) sp, ← popped]
    rfl

/-- A call writes the lowest dead slot, which its new SP makes live. -/
theorem execCall_answersSame {a : Addr12} (fits : u.Fits sound slots s) (ran : execCall a s = .next t) :
    AnswersSame sound slots t (execCall a (s.withUnread u)) := by
  obtain full | ⟨k, sp⟩ : s.sp.val = 16 ∨ ∃ k : Fin 16, s.sp.val = k.val :=
    s.sp.lastCases (.inl rfl) fun k => .inr ⟨k, rfl⟩
  · obtain rfl := Host.Outcome.next.inj ((execCall_of_sp_full a full).symm.trans ran)
    exact ⟨u, fits.congr rfl rfl rfl rfl, execCall_of_sp_full (s := s.withUnread u) a full⟩
  · obtain rfl := Host.Outcome.next.inj ((execCall_of_sp_eq a sp).symm.trans ran)
    refine ⟨{ u with stack := u.stack.set k.val s.pc k.isLt }, ⟨fun j (below : j.val < k.val + 1) => ?live, ?stack, fits.st,
      fits.reports⟩, execCall_of_sp_eq (s := s.withUnread u) a sp⟩
    case live =>
      show (u.stack.set k.val s.pc k.isLt)[j.val] = (s.stack.set k.val s.pc k.isLt)[j.val]
      simp only [Vector.getElem_set]
      split
      case isTrue => rfl
      case isFalse other => exact fits.live j (by omega)
    case stack =>
      intro same
      exact congrArg (fun stack : Vector Word 16 => stack.set k.val s.pc k.isLt) (fits.stack same)

/-! ### Every instruction and every step -/

theorem exec_answersSame {i : Instr} (fits : u.Fits sound slots s) (ran : exec i s = .next t) :
    AnswersSame sound slots t (exec i (s.withUnread u)) := by
  cases i with
  | ret => exact execReturn_answersSame fits ran
  | call a => exact execCall_answersSame fits ran
  | waitKey x => exact execWaitKey_answersSame fits ran
  | skipKeyPressed x =>
    exact answersSame_of_eq_finish fits ran (execSkipKeyPressed_eq_finish x s) (execSkipKeyPressed_eq_finish x _) fun _ =>
      skipIf_answersSame fits _
  | skipKeyNotPressed x =>
    exact answersSame_of_eq_finish fits ran (execSkipKeyNotPressed_eq_finish x s) (execSkipKeyNotPressed_eq_finish x _) fun _ =>
      skipIf_answersSame fits _
  | draw x y n =>
    exact answersSame_of_eq_finish fits ran (execDraw_eq_finish x y n s) (execDraw_eq_finish x y n _) fun _ =>
      ⟨u, fits.congr rfl rfl rfl rfl, rfl⟩
  | bcd x =>
    exact answersSame_of_eq_finish fits ran (execBcd_eq_finish x s) (execBcd_eq_finish x _) fun _ =>
      ⟨u, fits.congr rfl rfl rfl rfl, rfl⟩
  | storeRegs x =>
    exact answersSame_of_eq_finish fits ran (execStoreRegs_eq_finish x s) (execStoreRegs_eq_finish x _) fun _ =>
      ⟨u, fits.congr rfl rfl rfl rfl, rfl⟩
  | loadRegs x =>
    exact answersSame_of_eq_finish fits ran (execLoadRegs_eq_finish x s) (execLoadRegs_eq_finish x _) fun _ =>
      ⟨u, fits.congr (State.setRegs_sp s _) (State.setRegs_stack s _) (State.setRegs_st s _) (State.setRegs_reports s _), rfl⟩
  | skipEqImm _ _ | skipNeImm _ _ | skipEqReg _ _ | skipNeReg _ _ =>
    obtain rfl := Host.Outcome.next.inj ran
    exact skipIf_answersSame fits _
  | loadSound x =>
    obtain rfl := Host.Outcome.next.inj ran
    exact ⟨{ u with st := s.getV x }, ⟨fits.live, fits.stack, fun _ => rfl, fits.reports⟩, rfl⟩
  | unimplemented op =>
    obtain rfl := Host.Outcome.next.inj ran
    exact ⟨{ u with reports := u.reports ++ [op] },
      ⟨fits.live, fits.stack, fits.st, fun same => congrArg (· ++ [op]) (fits.reports same)⟩, rfl⟩
  | _ =>
    obtain rfl := Host.Outcome.next.inj ran
    exact ⟨u, fits.congr rfl rfl rfl rfl, rfl⟩

/-- FAULT, the fetch and the advance of PC read nothing unread. -/
theorem step_answersSame (fits : u.Fits sound slots s) (ran : step s = .next t) :
    AnswersSame sound slots t (step (s.withUnread u)) := by
  cases halted : s.fault with
  | some f => exact nomatch (step_of_halted halted).symm.trans ran
  | none =>
    obtain ⟨inMemory, -⟩ | ⟨outside, failed⟩ := fetch_cases s
    · have fetchable : s.pc.toNat ≤ 0xFFE := Nat.le_of_succ_le_succ inMemory
      rw [step_of_fetch (s := s.withUnread u) halted fetchable]
      exact exec_answersSame (s := advancePc s) (fits.congr rfl rfl rfl rfl) ((step_of_fetch halted fetchable).symm.trans ran)
    · obtain rfl := Host.Outcome.next.inj ((step_of_fetch_error halted failed).symm.trans ran)
      exact ⟨u, fits.congr rfl rfl rfl rfl, step_of_fetch_error (s := s.withUnread u) halted failed⟩
end

/-- Settles O39: with the stack the same, the two answers differ in ST and REPORTS alone. -/
theorem soundTimerAndReportsAreNeverRead : Obligations.SoundTimerAndReportsAreNeverRead := by
  intro s t st reports ran
  have fits : (Unread.mk s.stack st reports).Fits True False s := ⟨fun _ _ => rfl, fun _ => rfl, nofun, nofun⟩
  obtain ⟨u, fits', answered⟩ := step_answersSame fits ran
  refine ⟨_, answered, ?_⟩
  simp only [State.withUnread, fits'.stack not_false]

/-- Settles O40: with ST and REPORTS the same, the two answers differ in dead slots alone. -/
theorem deadStackSlotsAreUnobservable : Obligations.DeadStackSlotsAreUnobservable := by
  intro s t stack live ran
  have fits : (Unread.mk stack s.st s.reports).Fits False True s := ⟨live, nofun, fun _ => rfl, fun _ => rfl⟩
  obtain ⟨u, fits', answered⟩ := step_answersSame fits ran
  refine ⟨_, answered, ?_, fits'.live⟩
  simp only [State.withUnread, fits'.st not_false, fits'.reports not_false]

end Sys2Proof.Machine
end

section
/-! Runs that change nothing (70_reset_and_hazards.md R283, R285), the walk through empty memory (R278), and the word placed for the
next step (log entry 9). -/

namespace Sys2Proof.Machine

/-! ### Steps to the same state -/

/-- Settles O46: the jump puts PC back to the address it was fetched from. -/
theorem endedRunsStayAsTheyAre : Obligations.EndedRunsStayAsTheyAre := by
  rintro s k ⟨running, fetchable, nnn, word, toItself⟩
  refine run_fixed ?_ k
  have target : zextAddr nnn = s.pc := BitVec.eq_of_toNat_eq ((zextAddr_toNat nnn).trans toItself)
  have decoded : decodeWord (fetch16 s.mem s.pc.toNat) = .jump nnn := word ▸ decodeWord_jump nnn
  calc step s
    _ = exec (.jump nnn) (advancePc s) := by rw [step_of_fetch running fetchable, decoded]
    _ = .next ((advancePc s).setPc s.pc) := by rw [← target]; rfl

/-- Settles O47: with no key pressed wait-key takes back the fetch's advance and does nothing else. -/
theorem waitKeyWithNoKeyRunsForever : Obligations.WaitKeyWithNoKeyRunsForever := by
  intro s x k running fetchable word idle
  refine run_fixed ?_ k
  have decoded : decodeWord (fetch16 s.mem s.pc.toNat) = .waitKey x := word ▸ decodeWord_waitKey x
  calc step s
    _ = exec (.waitKey x) (advancePc s) := by rw [step_of_fetch running fetchable, decoded]
    _ = .next (rewind (advancePc s)) := execWaitKey_of_none x (lowestKey_of_none_pressed idle)
    _ = .next s := by rw [rewind_advancePc]

/-! ### Empty memory -/

/-- The state after `k` steps from reset with nothing loaded. -/
def walked (k : Nat) : State := { State.reset with pc := BitVec.ofNat 16 (0x200 + 2 * k), reports := List.replicate k 0x0000#16 }

theorem walked_pc_toNat {k : Nat} (le : k ≤ 1792) : (walked k).pc.toNat = 0x200 + 2 * k :=
  (BitVec.toNat_ofNat _ 16).trans (Nat.mod_eq_of_lt (by omega))

theorem fetch16_reset {a : Nat} (aboveFont : 80 ≤ a) : fetch16 State.reset.mem a = 0x0000#16 := by
  rw [fetch16, State.reset_read_above_font aboveFont, State.reset_read_above_font (by omega)]
  rfl

/-- Each zero word is reported and walked over. -/
theorem step_walked {k : Nat} (lt : k < 1792) : step (walked k) = .next (walked (k + 1)) := by
  have pc : (walked k).pc.toNat = 0x200 + 2 * k := walked_pc_toNat (Nat.le_of_lt lt)
  have word : fetch16 (walked k).mem (walked k).pc.toNat = 0x0000#16 := fetch16_reset (by omega)
  have advanced : (walked k).pc + 2 = BitVec.ofNat 16 (0x200 + 2 * (k + 1)) := (BitVec.ofNat_add _ 2).symm
  have reported : List.replicate k 0x0000#16 ++ [0x0000#16] = List.replicate (k + 1) 0x0000#16 := List.replicate_succ'.symm
  calc step (walked k)
    _ = exec (.unimplemented 0x0000#16) (advancePc (walked k)) := by rw [step_of_fetch rfl (by omega), word]; rfl
    _ = .next { State.reset with pc := (walked k).pc + 2, reports := List.replicate k 0x0000#16 ++ [0x0000#16] } := rfl
    _ = .next (walked (k + 1)) := by rw [advanced, reported]; rfl

theorem run_walked {k : Nat} (le : k ≤ 1792) : Host.Core.run core k State.reset = .next (walked k) := by
  induction k with
  | zero => rfl
  | succ k ih => exact (run_step_last core k (ih (Nat.le_of_succ_le le))).trans (step_walked le)

/-- Settles O45: 1792 steps walk from 0x200 to 0x1000, where no fetch is possible. -/
theorem emptyMemoryIsWalkedToItsEnd : Obligations.EmptyMemoryIsWalkedToItsEnd := by
  refine ⟨fun k le => run_walked le, ?_⟩
  have outside : 0xFFF < (walked 1792).pc.toNat + 1 := by rw [walked_pc_toNat le_rfl]; decide
  exact (run_step_last core 1792 (run_walked le_rfl)).trans (step_of_fetch_error rfl (fetch_of_gt _ outside))

/-! ### The word placed for the next step (log entry 9) -/

theorem fetchPlace_le (s : State) : (fetchPlace s).toNat ≤ 0xFFE := by
  unfold fetchPlace
  split
  case isTrue => decide
  case isFalse fetchable => omega

/-- The two bytes written are the word fetched. -/
theorem fetch16_write_wordBytes {m : Memory} (canonical : m.wf) {a : Nat} (inside : a ≤ 0xFFE) (op : Word) :
    fetch16 ((m.write a (wordBytes op).1).write (a + 1) (wordBytes op).2) a = op := by
  have high : ((m.write a (wordBytes op).1).write (a + 1) (wordBytes op).2).read a = (wordBytes op).1 := by
    rw [Memory.read_write_other _ _ (by omega), Memory.read_write_same canonical (by simp only [Config.memSize]; omega)]
  have low : ((m.write a (wordBytes op).1).write (a + 1) (wordBytes op).2).read (a + 1) = (wordBytes op).2 :=
    Memory.read_write_same (Memory.write_wf canonical a _) (by simp only [Config.memSize]; omega) _
  rw [fetch16, high, low, bigEndian_wordBytes]

/-- Settles O28: the core is not halted, PC is where a fetch is possible, and the bytes there are the word's. -/
theorem placedWordRunsNext : Obligations.PlacedWordRunsNext := by
  intro s w canonical width
  have placed : tableWord 16 w = BitVec.ofNat 16 w := congrArg (BitVec.ofNat 16) (Nat.mod_eq_of_lt width)
  have fetchable : (s.withFetchWord 16 w).pc.toNat ≤ 0xFFE := fetchPlace_le s
  have word : fetch16 (s.withFetchWord 16 w).mem (s.withFetchWord 16 w).pc.toNat = tableWord 16 w :=
    fetch16_write_wordBytes canonical fetchable (tableWord 16 w)
  rw [step_of_fetch rfl fetchable, word, placed]
  rfl

end Sys2Proof.Machine
end

section
/-! The two subtractions and rand-and (41_alu.md R149, R151, R155). -/

namespace Sys2Proof.Machine

/-- A byte subtraction is the exact difference modulo 256. -/
theorem sub_toNat_int (a b : Byte) : ((a - b).toNat : Int) = ((a.toNat : Int) - (b.toNat : Int)) % 256 := by
  have minuend : a.toNat < 256 := a.isLt
  have subtrahend : b.toNat < 256 := b.isLt
  rw [BitVec.toNat_sub]
  omega

/-- Result and flag of `a - b`, routed to X and VF (41_alu.md R141). -/
theorem writeDifference_spec (x : Nibble) (a b : Byte) (s : State) : ∃ t,
    (.next (writeResultThenFlag x (a - b) (noBorrowFlag a b) s) : Result) = .next t ∧
    t.getV vf = (if a.toNat ≥ b.toNat then 0x01#8 else 0x00#8) ∧
    (x ≠ vf → ((t.getV x).toNat : Int) = ((a.toNat : Int) - (b.toNat : Int)) % 256) ∧
    unchangedBut (fun p => p = .reg x ∨ p = .reg vf) s t := by
  refine ⟨_, rfl, (writeResultThenFlag_getV_vf x _ _ s).trans (noBorrowFlag_eq a b), fun notVf => ?_,
    writeResultThenFlag_frame x _ _ s⟩
  rw [writeResultThenFlag_getV_result _ _ s notVf, sub_toNat_int]

/-- Settles O10: the two differ only in which register is the minuend. -/
theorem subtractionsWriteDifferenceThenNoBorrow : Obligations.SubtractionsWriteDifferenceThenNoBorrow :=
  fun x y => ⟨decodeWord_subReg x y, decodeWord_subRegYx x y, fun s =>
    ⟨writeDifference_spec x (s.getV x) (s.getV y) s, writeDifference_spec x (s.getV y) (s.getV x) s⟩⟩

/-- Settles O12: the state is the one the draw leaves, with its byte under NN in V[X]. -/
theorem randAndMasksOneFreshDraw : Obligations.RandAndMasksOneFreshDraw := by
  intro x nn
  refine ⟨decodeWord_randAnd x nn, fun s => ?_⟩
  have value : ((drawRandom s).2.setV x (Config.randomByte s.draws &&& nn)).getV x = Config.randomByte s.draws &&& nn :=
    State.setV_getV_self _ x _
  refine ⟨_, rfl, value, rfl, fun k clear => ?masked,
    ((drawRandom_frame s).mono fun _ => .inr).trans ((setV_frame _ x _).mono fun _ => .inl)⟩
  exact (congrArg (·.getLsbD k) value).trans (by rw [BitVec.getLsbD_and, clear, Bool.and_false])

end Sys2Proof.Machine
end

section
/-! Words written out bit by bit (30_encoding.md R95), and lists of bytes (log entry 14). -/

namespace Sys2Proof

/-- Settles O27: sixteen closed words, each decoded. -/
theorem writtenOutWordsDecode : Obligations.WrittenOutWordsDecode := by
  unfold Obligations.WrittenOutWordsDecode
  decide

/-- Settles O52: the two bytes name one word, and only the lists of length 0 and 1 have fewer. -/
theorem listDecodingTakesTwoBytesOrRefuses : Obligations.ListDecodingTakesTwoBytesOrRefuses := by
  refine ⟨fun hi lo rest op value => ?pair, fun bytes e => ?refused⟩
  case pair =>
    have word : bigEndian hi lo = op := BitVec.eq_of_toNat_eq ((bigEndian_toNat hi lo).trans value.symm)
    rw [decode_pair, word]
  case refused =>
    match bytes with
    | [] => simp [decode, eq_comm]
    | [_] => simp [decode, eq_comm]
    | hi :: lo :: rest => simp [decode]

end Sys2Proof
end
